-- ==== Sys2Proof/Word.lean ====
section
/-! DEFINITION. Word.lean: the byte and the sextet, and the small fixed sets of names the whole model shares
(units, buffers, length-resolution modes). Spec: 00_scope.md R5, R7, R10; 10_state.md R20. -/

namespace Sys2Proof

/-- A byte: `BYTE_W = 8` bits (R5, R41). The unit of every buffer. -/
abbrev Byte := BitVec 8

/-- A sextet: a 6-bit value `0..63`, the index of a symbol in the alphabet table (R10). -/
abbrev Sextet := BitVec 6

/-- The two units of the hardware (R1, R20): `base64_encoder` and `base64_decoder`. -/
inductive UnitId where
  /-- `ENC`, the encoder; `OP = 0`, registers 0 to 3. -/
  | enc
  /-- `DEC`, the decoder; `OP = 1`, registers 4 to 7. -/
  | dec
  deriving DecidableEq, Repr

/-- The other unit. -/
def UnitId.other : UnitId → UnitId
  | .enc => .dec
  | .dec => .enc

/-- The two byte memories of a unit (R31, R40). -/
inductive Buf where
  /-- `U.IN`: written by the host, read by the unit. -/
  | input
  /-- `U.OUT`: written by the unit, read by the host. -/
  | output
  deriving DecidableEq, Repr

/-- The `MODE` bit of a command (R23, R60): how the length of the logical input is found. -/
inductive Mode where
  /-- `0`, raw mode: the length is `U.IN_LEN`, taken as given. -/
  | raw
  /-- `1`, string mode: the length is the index of the first zero byte of `U.IN`. -/
  | str
  deriving DecidableEq, Repr

end Sys2Proof
end

