-- ==== Sys2Proof/Machine/Tables.lean ====
section
/-! DEFINITION. Machine/Tables.lean: the constant tables (10_state.md R32: "in a model they are definitions, not fields of
the state"): the alphabet (30_encoding.md R66), the pad symbol (R67) and the reverse table (R68). Characters are ASCII bytes
(R65; the spec's general knowledge G1, G2). -/

namespace Sys2Proof.Machine

/-- `ALPHA[v]`, the symbol byte of a sextet: the closed form of R66. -/
def alpha (v : Sextet) : Byte :=
  if v.toNat ≤ 25 then BitVec.ofNat 8 (0x41 + v.toNat)
  else if v.toNat ≤ 51 then BitVec.ofNat 8 (0x61 + (v.toNat - 26))
  else if v.toNat ≤ 61 then BitVec.ofNat 8 (0x30 + (v.toNat - 52))
  else if v.toNat = 62 then 0x2B#8
  else 0x2F#8

/-- `PAD`, the character `=` (R67). -/
def pad : Byte := 0x3D#8

/-- `REV[b]` (R68): `some v` for `valid(v)`, `none` for `invalid`. -/
def rev (b : Byte) : Option Sextet :=
  if b = 0x2B#8 then some 62#6
  else if b = 0x2F#8 then some 63#6
  else if 0x30 ≤ b.toNat ∧ b.toNat ≤ 0x39 then some (BitVec.ofNat 6 (b.toNat - 0x30 + 52))
  else if 0x41 ≤ b.toNat ∧ b.toNat ≤ 0x5A then some (BitVec.ofNat 6 (b.toNat - 0x41))
  else if 0x61 ≤ b.toNat ∧ b.toNat ≤ 0x7A then some (BitVec.ofNat 6 (b.toNat - 0x61 + 26))
  else none

/-- `val(b)` (R110): the sextet of a symbol. It is applied only where check 2 has shown the byte valid; elsewhere it is 0,
which no write depends on. -/
def symbolValue (b : Byte) : Sextet := (rev b).getD 0#6

end Sys2Proof.Machine
end

