-- ==== Sys2Proof/Machine/Groups.lean ====
section
/-! DEFINITION. Machine/Groups.lean: the format `GROUP24` (30_encoding.md R70): 24 bits seen as three bytes `B0 B1 B2` or
as four sextets `S0 S1 S2 S3`, most significant first on both sides (20_memory.md R42). -/

namespace Sys2Proof.Machine

/-- `S0 = B0[7:2]` (R71). -/
def sextet0 (b0 : Byte) : Sextet := b0.extractLsb' 2 6

/-- `S1 = B0[1:0] ++ B1[7:4]` (R71). -/
def sextet1 (b0 b1 : Byte) : Sextet := b0.extractLsb' 0 2 ++ b1.extractLsb' 4 4

/-- `S2 = B1[3:0] ++ B2[7:6]` (R71). -/
def sextet2 (b1 b2 : Byte) : Sextet := b1.extractLsb' 0 4 ++ b2.extractLsb' 6 2

/-- `S3 = B2[5:0]` (R71). -/
def sextet3 (b2 : Byte) : Sextet := b2.extractLsb' 0 6

/-- `S1 = B0[1:0] ++ 0000`: one byte in the final group (R72). -/
def lastSextet1 (b0 : Byte) : Sextet := b0.extractLsb' 0 2 ++ 0#4

/-- `S2 = B1[3:0] ++ 00`: two bytes in the final group (R72). -/
def lastSextet2 (b1 : Byte) : Sextet := b1.extractLsb' 0 4 ++ 0#2

/-- `B0 = S0 ++ S1[5:4]` (R73). -/
def groupByte0 (s0 s1 : Sextet) : Byte := s0 ++ s1.extractLsb' 4 2

/-- `B1 = S1[3:0] ++ S2[5:2]` (R73). -/
def groupByte1 (s1 s2 : Sextet) : Byte := s1.extractLsb' 0 4 ++ s2.extractLsb' 2 4

/-- `B2 = S2[1:0] ++ S3` (R73). -/
def groupByte2 (s2 s3 : Sextet) : Byte := s2.extractLsb' 0 2 ++ s3

end Sys2Proof.Machine
end

