-- ==== Sys2Proof/Config.lean ====
section
/-! DEFINITION. Config.lean: what the spec leaves OPEN to an implementation (00_scope.md R5: `LEN_W`, `IN_BYTES`,
`OUT_BYTES`, the last two per unit), and the free values: the buffer contents after reset (10_state.md R34,
70_reset_and_hazards.md R180, R181) and what a host reads from `U.OUT` while the unit is busy (R30, R188).
Every free value is a constant without a body: no proof can see its value. -/

namespace Sys2Proof

/-- The implementation parameters of R5. They are fixed for a machine and differ between machines; `State` carries
them as data that no step changes, so that a statement about every state is a statement about every choice of them. -/
structure Params where
  /-- `LEN_W`: bits in a length or capacity value (R5, D6). -/
  lenW : Nat
  /-- `IN_BYTES` of `ENC` (R5, D7). -/
  encInBytes : Nat
  /-- `OUT_BYTES` of `ENC` (R5, D7). -/
  encOutBytes : Nat
  /-- `IN_BYTES` of `DEC` (R5, D7). -/
  decInBytes : Nat
  /-- `OUT_BYTES` of `DEC` (R5, D7). -/
  decOutBytes : Nat
  deriving DecidableEq, Repr

/-- `IN_BYTES` of a unit (R5: "a model parameter per unit"). -/
def Params.inBytes (p : Params) : UnitId → Nat
  | .enc => p.encInBytes
  | .dec => p.decInBytes

/-- `OUT_BYTES` of a unit (R5: "a model parameter per unit"). -/
def Params.outBytes (p : Params) : UnitId → Nat
  | .enc => p.encOutBytes
  | .dec => p.decOutBytes

/-- OPEN (R5, D6): how many bits `LEN_W` has beyond the 8 it must have. Log entry 2. -/
opaque Config.lenWBeyond8 : Nat
/-- OPEN (R5, D7): selects `IN_BYTES` of `ENC` within its legal range. Log entry 2. -/
opaque Config.encInChoice : Nat
/-- OPEN (R5, D7): selects `OUT_BYTES` of `ENC` within its legal range. Log entry 2. -/
opaque Config.encOutChoice : Nat
/-- OPEN (R5, D7): selects `IN_BYTES` of `DEC` within its legal range. Log entry 2. -/
opaque Config.decInChoice : Nat
/-- OPEN (R5, D7): selects `OUT_BYTES` of `DEC` within its legal range. Log entry 2. -/
opaque Config.decOutChoice : Nat

/-- The width `LEN_W >= 8` of the machine that `State.reset` describes (R5). -/
def Config.lenW : Nat := 8 + Config.lenWBeyond8

/-- The parameters of the machine that `State.reset` describes: any legal choice of R5 and nothing more is known of it
(`LEN_W >= 8`, `1 <= IN_BYTES <= 2^LEN_W`, `0 <= OUT_BYTES <= 2^LEN_W - 1`; every such choice is reached). -/
def Config.params : Params where
  lenW := Config.lenW
  encInBytes := Config.encInChoice % 2 ^ Config.lenW + 1
  encOutBytes := Config.encOutChoice % 2 ^ Config.lenW
  decInBytes := Config.decInChoice % 2 ^ Config.lenW + 1
  decOutBytes := Config.decOutChoice % 2 ^ Config.lenW

/-- FREE VALUE (R34, R180, U6): the byte that index `index` of buffer `b` of unit `u` holds after reset number `launch`
while nothing has written it: "any value (a draw per byte, fixed at launch)". Log entry 3. -/
opaque Config.launchByte (launch : Nat) (u : UnitId) (b : Buf) (index : Nat) : Byte

/-- FREE VALUE (R30, R188): what the `k`-th host read of a busy unit's `U.OUT` returns; the spec gives it no meaning.
Log entry 5. -/
opaque Config.busyReadByte (k : Nat) : Byte

end Sys2Proof
end

