-- ==== Sys2Proof/Syntax.lean ====
section
/-! DEFINITION. Syntax.lean: the instructions. An instruction of this hardware is one command given to one unit
(00_scope.md R6; 30_encoding.md R61): one whole-buffer operation. It has no operand field (R60): its operands are the
unit's `IN_LEN` and `CAP` registers and its `IN` buffer. -/

namespace Sys2Proof

/-- The four commands, one constructor per row of spec/opcode_table.json (R61: "this table is the whole opcode map"). -/
inductive Instr where
  /-- `ENC.RAW`: encode `in[0 .. IN_LEN-1]` (R91). -/
  | encRaw
  /-- `ENC.STR`: encode the bytes of `ENC.IN` before its first zero byte (R92). -/
  | encStr
  /-- `DEC.RAW`: decode `in[0 .. IN_LEN-1]` (R111). -/
  | decRaw
  /-- `DEC.STR`: decode the bytes of `DEC.IN` before its first zero byte (R112). -/
  | decStr
  deriving DecidableEq, Repr

/-- The unit a command goes to: its `OP` bit (R60). -/
def Instr.unit : Instr → UnitId
  | .encRaw => .enc
  | .encStr => .enc
  | .decRaw => .dec
  | .decStr => .dec

/-- The length-resolution policy of a command: its `MODE` bit (R60). -/
def Instr.mode : Instr → Mode
  | .encRaw => .raw
  | .encStr => .str
  | .decRaw => .raw
  | .decStr => .str

end Sys2Proof
end

