-- ==== Sys2Proof/Machine/State.lean ====
section
/-! DEFINITION. Machine/State.lean: everything the spec gives the machine (10_state.md R20 to R36, 20_memory.md R40),
as plain data; the host's pending actions and the order in which the agents move (00_scope.md R6, R10; 30_encoding.md
R64); the reasons a step can stop; and the state after reset (R34, R180). -/

namespace Sys2Proof.Machine

/-- The bytes of one buffer that something has written since the last reset, as (index, byte) pairs at strictly rising
indices. A missing index holds its launch value (`Config.launchByte`), which is arbitrary: R34, U6, log entry 3. -/
abbrev Memory := List Host.Cell

/-- `U.STATUS` (R25), read-only to the host. The register as one 5-bit word is `Status.word`. -/
structure Status where
  /-- `CODE[2:0]`: the status code of the last completed operation (R62). -/
  code : BitVec 3
  /-- `DONE[3]`: an operation has completed and its results are valid. -/
  done : Bool
  /-- `BUSY[4]`: between a start and its completion. -/
  busy : Bool
  deriving DecidableEq, Repr

/-- One unit: its four registers (R22) and its two buffers (R31). `LEN_W`-bit registers are naturals (R9, log entry 4);
`State.wf` says they stay below `2^LEN_W`. -/
structure UnitState where
  /-- `U.CMD.MODE` (R23). -/
  mode : Mode
  /-- `U.IN_LEN` (R26). -/
  inLen : Nat
  /-- `U.CAP` (R27). -/
  cap : Nat
  /-- `U.STATUS` (R25). -/
  status : Status
  /-- `U.IN` (R31, R40). -/
  inBuf : Memory
  /-- `U.OUT` (R31, R40). -/
  outBuf : Memory
  deriving DecidableEq, Repr

/-- One host action (R64). `FILL`, `DUMP` and the four pseudo-forms are sequences of these: Machine/HostActions.lean. A
register is given by its number 0 to 7 (R22): bit 2 is the unit, bits 1:0 the register of the unit. -/
inductive HostAction where
  /-- `WR r, v`. -/
  | wr (r : BitVec 3) (v : Nat)
  /-- `RD r`. -/
  | rd (r : BitVec 3)
  /-- One byte write of a `FILL U.IN` or `FILL U.OUT`. -/
  | put (u : UnitId) (b : Buf) (index : Nat) (v : Byte)
  /-- One byte read: of a `DUMP U.OUT`, or a read back of `U.IN` (R40: "host may read back"). -/
  | get (u : UnitId) (b : Buf) (index : Nat)
  /-- `WAIT U`: read `U.STATUS` until `DONE = 1`. -/
  | wait (u : UnitId)
  deriving DecidableEq, Repr

/-- What a host read returned. -/
inductive Reading where
  /-- A register read, zero-extended (R22). -/
  | register (r : BitVec 3) (v : Nat)
  /-- A buffer byte read. -/
  | byte (u : UnitId) (b : Buf) (index : Nat) (v : Byte)
  deriving DecidableEq, Repr

/-- Who moves in a step: the host or a unit (R20), or the platform that signals reset (R180). -/
inductive Turn where
  /-- The host performs its next action. -/
  | host
  /-- A unit performs its completion step, if it is busy (R29). -/
  | unit (u : UnitId)
  /-- The reset event, which acts on both units at once (R180). -/
  | reset
  deriving DecidableEq, Repr

/-- The state of the machine: the two units, the parameters they were built with, and the outside world as data. -/
structure State where
  /-- The implementation parameters (R5). No step changes them. -/
  params : Params
  /-- `ENC` (R20). -/
  enc : UnitState
  /-- `DEC` (R20). -/
  dec : UnitState
  /-- MODEL'S OWN: the number of the last reset; it selects the launch value of every unwritten buffer byte (R34). -/
  launch : Nat
  /-- MODEL'S OWN: how many free bytes host reads of a busy unit's `OUT` have drawn (R30). -/
  busyReads : Nat
  /-- The host's actions still to be performed, the next one first (R10 "program"). -/
  program : List HostAction
  /-- MODEL'S OWN: who moves in the coming steps, first to last; where it is empty `nextTurn` chooses (log entry 6). -/
  schedule : List Turn
  /-- MODEL'S OWN: what the host's reads returned, the latest first. -/
  readings : List Reading
  deriving DecidableEq, Repr

/-- Why the machine stops with a fault. Both are moves of the host, never of a command. -/
inductive Fault where
  /-- The host writes `U.IN` or `U.OUT` while `U.STATUS.BUSY = 1` (R30, R188, U4: "a model that prefers the safe side
  makes such a write a fault"). Raised by `hostPut`. Safe: the model stops where a platform might go on. -/
  | bufferWriteWhileBusy (u : UnitId) (b : Buf)
  /-- The host addresses a buffer index outside `0 .. IN_BYTES-1` or `0 .. OUT_BYTES-1` (R40): there is no such byte.
  Raised by `hostPut` and `hostGet`. Safe. -/
  | noSuchIndex (u : UnitId) (b : Buf) (index : Nat)
  deriving DecidableEq, Repr

/-- Why a command has no meaning. The first is the host's bookkeeping; the others are the spec's `refuse(P)` (R8, R44,
R143; 93_implementation_defined.md U1 to U3). -/
inductive Refusal where
  /-- An instruction whose arm of `exec` has no meaning yet. No arm of this model raises it. Safe. -/
  | notModelled (mnemonic : String)
  /-- `refuse(P_CAP)`: `U.CAP > OUT_BYTES` (R44, U2). Raised by `encodeOp` and `decodeOp`. Safe. -/
  | capacityBeyondBuffer (u : UnitId)
  /-- `refuse(P_LEN)`: raw mode and `U.IN_LEN > IN_BYTES` (R143, U1). Raised by `resolveLen`. Safe. -/
  | lengthBeyondBuffer (u : UnitId)
  /-- `refuse(P_TERM)`: string mode and no byte of `U.IN` is zero (R143, U3). Raised by `resolveLen`. Safe. -/
  | noTerminator (u : UnitId)
  deriving DecidableEq, Repr

/-- A unit right after reset: every register 0 (R34, R180), nothing written in its buffers. -/
def UnitState.reset : UnitState where
  mode := .raw
  inLen := 0
  cap := 0
  status := ⟨0, false, false⟩
  inBuf := []
  outBuf := []

/-- The machine right after reset (R34, R180): both units idle, every register 0, every buffer byte arbitrary (nothing
listed, so launch number 0's free values), for any legal parameters; the outside world has nothing to do yet. -/
def State.reset : State where
  params := Config.params
  enc := .reset
  dec := .reset
  launch := 0
  busyReads := 0
  program := []
  schedule := []
  readings := []

end Sys2Proof.Machine
end

