-- ==== Sys2Proof/Machine/Operands.lean ====
section
/-! DEFINITION. Machine/Operands.lean: how a command finds its operand, the logical input (42_mode_adaptation.md R140 to
R145), and the arithmetic of sizes on natural numbers without wrap-around (00_scope.md R9). -/

namespace Sys2Proof.Machine

/-- `ceil_div(a, b) = (a + b - 1) div b` (R9). -/
def ceilDiv (a b : Nat) : Nat := (a + b - 1) / b

/-- The least index in `a .. a+k-1` whose byte is zero, if there is one: the scan of string mode (R140). -/
def firstZero (input : Nat → Byte) : Nat → Nat → Option Nat
  | 0, _ => none
  | k + 1, a => if input a = 0#8 then some a else firstZero input k (a + 1)

/-- `ResolveLen(m, len, IN)` (R140): the length of the logical input, or the precondition of R143 that fails. Raw mode takes
the count as given (R142); string mode ignores it and scans the whole buffer (R141). -/
def resolveLen (u : UnitId) (inBytes : Nat) (m : Mode) (len : Nat) (input : Nat → Byte) : Except Refusal Nat :=
  match m with
  | .raw => if len ≤ inBytes then .ok len else .error (.lengthBeyondBuffer u)
  | .str =>
    match firstZero input inBytes 0 with
    | some n => .ok n
    | none => .error (.noTerminator u)

end Sys2Proof.Machine
end

