-- ==== Sys2Proof/WellFormed.lean ====
section
/-! DEFINITION. WellFormed.lean: the checks on terms. A command has no field that could be ill-formed: "Command word:
none. All four values of `{OP, MODE}` are legal" (30_encoding.md R63 (a)). What can be ill-formed is a choice of the
implementation parameters (00_scope.md R5); each of its three range conditions is a check of its own. -/

namespace Sys2Proof

/-- Every command is well-formed (R63 (a)). -/
def Instr.wellFormed : Instr → Bool
  | .encRaw => true
  | .encStr => true
  | .decRaw => true
  | .decStr => true

/-- R5: `LEN_W >= 8`. -/
def Params.widthOk (p : Params) : Bool := decide (8 ≤ p.lenW)

/-- R5: `1 <= IN_BYTES <= 2^LEN_W`, for one unit. -/
def Params.inSizeOk (p : Params) (u : UnitId) : Bool :=
  decide (1 ≤ p.inBytes u) && decide (p.inBytes u ≤ 2 ^ p.lenW)

/-- R5: `0 <= OUT_BYTES <= 2^LEN_W - 1`, for one unit. -/
def Params.outSizeOk (p : Params) (u : UnitId) : Bool := decide (p.outBytes u ≤ 2 ^ p.lenW - 1)

/-- A legal choice of the parameters (R5). -/
def Params.wellFormed (p : Params) : Bool :=
  p.widthOk && p.inSizeOk .enc && p.inSizeOk .dec && p.outSizeOk .enc && p.outSizeOk .dec

end Sys2Proof
end

