-- ==== Sys2Proof/Decode.lean ====
section
/-! DEFINITION. Decode.lean: the command word `CMD2` (30_encoding.md R60, R61), its decoder, and after it the encoder.
A command word has two bits, `{OP, MODE}`, `OP` the more significant. -/

namespace Sys2Proof

/-- Why a sequence of bytes holds no command. No two-bit word is illegal (R63 (a)), so the one reason is that there is
no byte at all. -/
inductive DecodeError where
  /-- The sequence is empty. -/
  | noCommandByte
  deriving DecidableEq, Repr

/-- R60: `OP = 0` sends the command to `ENC`, `OP = 1` to `DEC`. -/
def unitOfOp (op : BitVec 1) : UnitId := if op = 0#1 then .enc else .dec

/-- R60, R23: `MODE = 0` is raw mode, `MODE = 1` string mode. -/
def modeOfBit (b : BitVec 1) : Mode := if b = 0#1 then .raw else .str

/-- The command that unit `u` runs in mode `m`: the table of R61. -/
def instrOf : UnitId → Mode → Instr
  | .enc, .raw => .encRaw
  | .enc, .str => .encStr
  | .dec, .raw => .decRaw
  | .dec, .str => .decStr

/-- The command a two-bit word stands for (R60, R61). Total: every one of the four patterns is a command. -/
def decodeCommand (w : BitVec 2) : Instr :=
  instrOf (unitOfOp (w.extractLsb' 1 1)) (modeOfBit (w.extractLsb' 0 1))

/-- The command at the front of a byte sequence, with the bytes after it. A command word fills bits 1:0 of its byte;
the table's mask (3) reads no other bit, and the byte's bits 7:2 are ignored (log entry 7). -/
def decode : List Byte → Except DecodeError (Instr × List Byte)
  | [] => .error .noCommandByte
  | b :: rest => .ok (decodeCommand (b.extractLsb' 0 2), rest)

/-- The bytes that hold a table word of `nbits` bits, least significant byte first; at least the one byte a command
word needs. -/
def tableBytes (nbits w : Nat) : List Byte :=
  (List.range (max 1 ((nbits + 7) / 8))).map fun k => BitVec.ofNat 8 (w % 2 ^ nbits / 2 ^ (8 * k))

/-- What the decoder reads from an instruction whose bits are `w`, numbered as spec/opcode_table.json numbers them. -/
def decodeTableWord (nbits w : Nat) : Option Instr :=
  match decode (tableBytes nbits w) with
  | .ok (i, _) => some i
  | .error _ => none

/-- The `OP` bit of a unit (R60; bit 2 of its register numbers, R22). -/
def opOfUnit : UnitId → BitVec 1
  | .enc => 0#1
  | .dec => 1#1

/-- The `MODE` bit of a mode (R60, R23). -/
def bitOfMode : Mode → BitVec 1
  | .raw => 0#1
  | .str => 1#1

/-- The command word `{OP, MODE}` (R60): the column `OP MODE` of the table of R61. -/
def commandWord : Instr → BitVec 2
  | .encRaw => 0b00#2
  | .encStr => 0b01#2
  | .decRaw => 0b10#2
  | .decStr => 0b11#2

/-- The words of an instruction: one byte that holds the command word in its bits 1:0, its other bits zero. -/
def encode (i : Instr) : List Byte := [(commandWord i).zeroExtend 8]

end Sys2Proof
end

