-- ==== Sys2Proof/Machine/Flags.lean ====
section
/-! DEFINITION. Machine/Flags.lean: the flags of a unit. `U.STATUS` holds the only flags there are (10_state.md R25); they
are written by the start step (R28), the completion step (R29) and reset, and by nothing else. The status kinds are those
of 60_exceptions.md R150, their codes those of 30_encoding.md R62. -/

namespace Sys2Proof.Machine

/-- The five kinds of status (R150). -/
inductive StatusKind where
  /-- No check failed. -/
  | success
  /-- `capacity_in < req` (R93, R117). -/
  | insufficientBufferCapacity
  /-- Decode: `n = 0` or `n mod 4 != 0` (R113). -/
  | malformedInputLength
  /-- Decode: a byte before the pads is no symbol (R115). -/
  | invalidCharacter
  /-- Never produced (R154). -/
  | nullOrEmptyInput
  deriving DecidableEq, Repr

/-- `code(S)` (R62). -/
def statusCode : StatusKind → BitVec 3
  | .success => 0
  | .insufficientBufferCapacity => 1
  | .malformedInputLength => 2
  | .invalidCharacter => 3
  | .nullOrEmptyInput => 4

/-- `U.STATUS` after a start step (R28): `BUSY = 1`, `DONE = 0`, `CODE = 0`. -/
def Status.started : Status := ⟨0, false, true⟩

/-- `U.STATUS` after a completion step with status `k` (R29): `BUSY = 0`, `DONE = 1`, `CODE = code(S)`. -/
def Status.completed (k : StatusKind) : Status := ⟨statusCode k, true, false⟩

/-- `U.STATUS` as the 5-bit register (R25): `CODE` in bits 2:0, `DONE` bit 3, `BUSY` bit 4. -/
def Status.word (x : Status) : BitVec 5 := BitVec.ofBool x.busy ++ BitVec.ofBool x.done ++ x.code

end Sys2Proof.Machine
end

