-- ==== Sys2Proof/Machine/Ops.lean ====
section
/-! DEFINITION. Machine/Ops.lean: the shared operations: memory accesses of one byte (20_memory.md R45 to R47), the two
units of a state, the buffers with their bounds (R40), the start step (10_state.md R28) and the completion step (R29,
60_exceptions.md R155), the registers as the host sees them (R22, R30), the fetch of a unit's command, the choice of who
moves, and the reset event (70_reset_and_hazards.md R180, R181). -/

namespace Sys2Proof.Machine

/-! ### Memory -/

/-- What an index that is not listed reads as: no byte has been written there since reset. The buffer's own read
(`State.byteAt`) turns this into the free launch value. -/
def Memory.unlisted : Option Byte := none

/-- The byte written at an index, if any. -/
def Memory.read : Memory → Nat → Option Byte
  | [], _ => Memory.unlisted
  | c :: m, a => if c.1 = a then some c.2 else Memory.read m a

/-- `MemWrite` on the listed bytes (R47): one index gets the value, nothing else changes, the indices keep rising. -/
def Memory.write : Memory → Nat → Byte → Memory
  | [], a, v => [(a, v)]
  | c :: m, a, v =>
    if a < c.1 then (a, v) :: c :: m
    else if a = c.1 then (a, v) :: m
    else c :: Memory.write m a v

/-- A list of writes, in order (R29: "for each (a, v) in W, in order"). -/
def Memory.writeAll (m : Memory) (ws : List Host.Cell) : Memory :=
  ws.foldl (fun acc c => acc.write c.1 c.2) m

/-- The canonical form: strictly rising indices (so none twice), and no entry that says what a missing one says. -/
abbrev Memory.wf (m : Memory) : Prop :=
  m.Pairwise (fun c d => c.1 < d.1) ∧ ∀ c ∈ m, some c.2 ≠ Memory.unlisted

/-! ### Units and buffers -/

/-- The state of a unit. -/
def State.unit (s : State) : UnitId → UnitState
  | .enc => s.enc
  | .dec => s.dec

/-- Replace the state of a unit; the other unit is not touched (R20). -/
def State.setUnit (s : State) (u : UnitId) (x : UnitState) : State :=
  match u with
  | .enc => { s with enc := x }
  | .dec => { s with dec := x }

/-- `IN_BYTES` of a unit (R5). -/
def State.inBytes (s : State) (u : UnitId) : Nat := s.params.inBytes u

/-- `OUT_BYTES` of a unit (R5). -/
def State.outBytes (s : State) (u : UnitId) : Nat := s.params.outBytes u

/-- The number of bytes of a buffer (R40). -/
def State.bufBytes (s : State) (u : UnitId) : Buf → Nat
  | .input => s.inBytes u
  | .output => s.outBytes u

/-- The written bytes of a buffer. -/
def UnitState.buf (x : UnitState) : Buf → Memory
  | .input => x.inBuf
  | .output => x.outBuf

/-- Replace the written bytes of a buffer; `U.IN` and `U.OUT` are different memories (R57). -/
def UnitState.setBuf (x : UnitState) (b : Buf) (m : Memory) : UnitState :=
  match b with
  | .input => { x with inBuf := m }
  | .output => { x with outBuf := m }

/-- The byte at an index of a buffer: the one last written, else the launch value (R34, R46). -/
def State.byteAt (s : State) (u : UnitId) (b : Buf) (a : Nat) : Byte :=
  (((s.unit u).buf b).read a).getD (Config.launchByte s.launch u b a)

/-- `in[a]` of unit `u` (R8, R46). -/
def State.inByte (s : State) (u : UnitId) (a : Nat) : Byte := s.byteAt u .input a

/-- `out[a]` of unit `u`, as the host finds it when the unit is idle (R8). -/
def State.outByte (s : State) (u : UnitId) (a : Nat) : Byte := s.byteAt u .output a

/-! ### Start and completion -/

/-- What the operation function of a unit returns, `(S, c, W)` (R29). -/
structure OpResult where
  /-- `S`. -/
  status : StatusKind
  /-- `c`, the capacity result. -/
  cap : Nat
  /-- `W`, the `MemWrite`s to `U.OUT` in order. -/
  writes : List Host.Cell
  deriving DecidableEq, Repr

/-- `raise S` (R8, R155, R156, R157): the capacity result is `capacity_in` and nothing is written. -/
def raise (k : StatusKind) (capacityIn : Nat) : OpResult := ⟨k, capacityIn, []⟩

/-- The start step (R28). -/
def UnitState.start (x : UnitState) (m : Mode) : UnitState :=
  { x with mode := m, status := .started }

/-- The completion step (R29): the writes, then `CAP`, `CODE`, `BUSY`, `DONE`. For a status other than `Success` this is
the whole of what R155 calls "trap entry"; there is nothing to return from (R158). -/
def UnitState.complete (x : UnitState) (r : OpResult) : UnitState :=
  { x with outBuf := x.outBuf.writeAll r.writes, cap := r.cap, status := .completed r.status }

/-- The type of a unit's operation function (R29): from `OUT_BYTES`, `IN_BYTES`, the mode, `IN_LEN`, the input buffer
and `capacity_in` to a result, or to the precondition the command violates. -/
abbrev Operation := Nat → Nat → Mode → Nat → (Nat → Byte) → Nat → Except Refusal OpResult

/-- A command carried out by its unit: the start step, then the completion step (R91, R92, R111, R112). On a unit that a
host's command write has already started with this mode, the start changes nothing that the completion leaves. Where the
operation refuses, "the spec defines no completion step" (R29). -/
def runCommand (u : UnitId) (m : Mode) (op : Operation) (s : State) : Host.Outcome State Fault Refusal :=
  match op (s.outBytes u) (s.inBytes u) m (s.unit u).inLen (s.inByte u) (s.unit u).cap with
  | .error r => .refused r
  | .ok r => .next (s.setUnit u (((s.unit u).start m).complete r))

/-! ### Registers as the host sees them -/

/-- R22: "Bit 2 of the register number selects the unit". -/
def registerUnit (r : BitVec 3) : UnitId := unitOfOp (r.extractLsb' 2 1)

/-- The register of the unit: 0 `CMD`, 1 `IN_LEN`, 2 `CAP`, 3 `STATUS` (R22). -/
def registerIndex (r : BitVec 3) : BitVec 2 := r.extractLsb' 0 2

/-- The number of `U.CMD` (R22): 0 for `ENC`, 4 for `DEC`. -/
def cmdRegister (u : UnitId) : BitVec 3 := opOfUnit u ++ 0#2

/-- The number of `U.IN_LEN` (R22). -/
def inLenRegister (u : UnitId) : BitVec 3 := opOfUnit u ++ 1#2

/-- The number of `U.CAP` (R22). -/
def capRegister (u : UnitId) : BitVec 3 := opOfUnit u ++ 2#2

/-- The number of `U.STATUS` (R22). -/
def statusRegister (u : UnitId) : BitVec 3 := opOfUnit u ++ 3#2

/-- What a host read of a register returns: "its current value", zero-extended (R22, R30). -/
def State.readRegister (s : State) (r : BitVec 3) : Nat :=
  let x := s.unit (registerUnit r)
  match registerIndex r with
  | 0#2 => (bitOfMode x.mode).toNat
  | 1#2 => x.inLen
  | 2#2 => x.cap
  | _ => x.status.word.toNat

/-- A host write to a register of an idle unit: `CMD` starts an operation in the mode of bit 0 (R23, R28), `IN_LEN` and
`CAP` take the low `LEN_W` bits (R22, D29), `STATUS` ignores the write (R22, R25). -/
def UnitState.writeRegister (x : UnitState) (lenW : Nat) (k : BitVec 2) (v : Nat) : UnitState :=
  match k with
  | 0#2 => x.start (modeOfBit (BitVec.ofNat 1 v))
  | 1#2 => { x with inLen := v % 2 ^ lenW }
  | 2#2 => { x with cap := v % 2 ^ lenW }
  | _ => x

/-- A host write to a register: ignored while the unit is busy (R30), else as `UnitState.writeRegister` says. -/
def State.writeRegister (s : State) (r : BitVec 3) (v : Nat) : State :=
  let u := registerUnit r
  if (s.unit u).status.busy then s
  else s.setUnit u ((s.unit u).writeRegister s.params.lenW (registerIndex r) v)

/-! ### The fetch of a command, the order of moves, reset -/

/-- The command word `{OP, MODE}` a busy unit has been given: `OP` is the unit, `MODE` is `U.CMD.MODE` (R28, R60). This is
where a command stands between the write that gives it and the completion that carries it out. -/
def State.fetchWord (s : State) (u : UnitId) : BitVec 2 := opOfUnit u ++ bitOfMode (s.unit u).mode

/-- Who moves next: the head of the schedule; where nothing is scheduled, a busy unit completes (R192: the completion
step of a busy unit is always enabled), `ENC` before `DEC`, and otherwise the host moves. Log entry 6. -/
def State.nextTurn (s : State) : Turn :=
  match s.schedule with
  | t :: _ => t
  | [] => if s.enc.status.busy then .unit .enc else if s.dec.status.busy then .unit .dec else .host

/-- The state with the turn taken off the schedule. -/
def State.popTurn (s : State) : State := { s with schedule := s.schedule.tail }

/-- The reset event (R180, R181): every register 0, every buffer byte unspecified (nothing listed, under the next launch
number, so a new free value everywhere), a running operation abandoned. The parameters and the outside world stay. -/
def State.resetEvent (s : State) : State :=
  { s with enc := .reset, dec := .reset, launch := s.launch + 1 }

end Sys2Proof.Machine
end

