-- ==== Sys2Proof/Machine/Decoder.lean ====
section
/-! DEFINITION. Machine/Decoder.lean: the decode operation (41_decode.md R110, R113 to R120) and the meanings of the two
commands of `DEC`, `DEC.RAW` (R111) and `DEC.STR` (R112). -/

namespace Sys2Proof.Machine

/-- The pad count `p` of a logical input of `n >= 4` bytes (R114): its trailing `PAD` bytes, counted up to two. -/
def padCount (input : Nat → Byte) (n : Nat) : Nat :=
  if input (n - 1) = pad ∧ input (n - 2) = pad then 2
  else if input (n - 1) = pad then 1
  else 0

/-- Check 2 (R115): every byte at an index `0 .. k-1` is a symbol. -/
def allSymbols (input : Nat → Byte) (k : Nat) : Bool :=
  (List.range k).all fun i => (rev (input i)).isSome

/-- `req = (n div 4) * 3 - p` (R116). -/
def decodeSize (n p : Nat) : Nat := n / 4 * 3 - p

/-- The writes of group `g`: three bytes, or fewer where the pads of the final group cut it short (R118, R119). -/
def decodeGroup (input : Nat → Byte) (req g : Nat) : List Host.Cell :=
  let s0 := symbolValue (input (4 * g))
  let s1 := symbolValue (input (4 * g + 1))
  let s2 := symbolValue (input (4 * g + 2))
  let s3 := symbolValue (input (4 * g + 3))
  [(3 * g, groupByte0 s0 s1)]
    ++ (if 3 * g + 1 < req then [(3 * g + 1, groupByte1 s1 s2)] else [])
    ++ (if 3 * g + 2 < req then [(3 * g + 2, groupByte2 s2 s3)] else [])

/-- All writes of a successful decode of `n` bytes into `req`, group by group in ascending order (R110). -/
def decodeWrites (input : Nat → Byte) (n req : Nat) : List Host.Cell :=
  (List.range (n / 4)).flatMap (decodeGroup input req)

/-- `Decode(m, len, IN, capacity_in)` (R110): the checks in the order of R152, all before the first write. -/
def decodeOp : Operation := fun outBytes inBytes m len input capacityIn =>
  if outBytes < capacityIn then .error (.capacityBeyondBuffer .dec)
  else
    match resolveLen .dec inBytes m len input with
    | .error e => .error e
    | .ok n =>
      if n = 0 ∨ n % 4 ≠ 0 then .ok (raise .malformedInputLength capacityIn)
      else if allSymbols input (n - padCount input n) = false then .ok (raise .invalidCharacter capacityIn)
      else if capacityIn < decodeSize n (padCount input n) then .ok (raise .insufficientBufferCapacity capacityIn)
      else
        .ok ⟨.success, decodeSize n (padCount input n), decodeWrites input n (decodeSize n (padCount input n))⟩

/-- `DEC.RAW` (R111). -/
def execDecRaw (s : State) : Host.Outcome State Fault Refusal := runCommand .dec .raw decodeOp s

/-- `DEC.STR` (R112). -/
def execDecStr (s : State) : Host.Outcome State Fault Refusal := runCommand .dec .str decodeOp s

end Sys2Proof.Machine
end

