-- ==== Sys2Proof/Machine/Encoder.lean ====
section
/-! DEFINITION. Machine/Encoder.lean: the encode operation (40_encode.md R90, R93 to R96) and the meanings of the two
commands of `ENC`, `ENC.RAW` (R91) and `ENC.STR` (R92). -/

namespace Sys2Proof.Machine

/-- `req = ceil_div(n, 3) * 4` (R93). -/
def encodeSize (n : Nat) : Nat := ceilDiv n 3 * 4

/-- The four writes of full group `g` (R94). -/
def encodeGroup (input : Nat → Byte) (g : Nat) : List Host.Cell :=
  let b0 := input (3 * g)
  let b1 := input (3 * g + 1)
  let b2 := input (3 * g + 2)
  [(4 * g, alpha (sextet0 b0)), (4 * g + 1, alpha (sextet1 b0 b1)),
    (4 * g + 2, alpha (sextet2 b1 b2)), (4 * g + 3, alpha (sextet3 b2))]

/-- The writes of the final partial group, after `q` full groups, by the number `r` of bytes remaining (R95). -/
def encodeTail (input : Nat → Byte) (q : Nat) : Nat → List Host.Cell
  | 1 =>
    let b0 := input (3 * q)
    [(4 * q, alpha (sextet0 b0)), (4 * q + 1, alpha (lastSextet1 b0)), (4 * q + 2, pad), (4 * q + 3, pad)]
  | 2 =>
    let b0 := input (3 * q)
    let b1 := input (3 * q + 1)
    [(4 * q, alpha (sextet0 b0)), (4 * q + 1, alpha (sextet1 b0 b1)), (4 * q + 2, alpha (lastSextet2 b1)),
      (4 * q + 3, pad)]
  | _ => []

/-- All writes of a successful encode of `n` bytes: the full groups in ascending order, then the partial one (R90). -/
def encodeWrites (input : Nat → Byte) (n : Nat) : List Host.Cell :=
  (List.range (n / 3)).flatMap (encodeGroup input) ++ encodeTail input (n / 3) (n % 3)

/-- `Encode(m, len, IN, capacity_in)` (R90). -/
def encodeOp : Operation := fun outBytes inBytes m len input capacityIn =>
  if outBytes < capacityIn then .error (.capacityBeyondBuffer .enc)
  else
    match resolveLen .enc inBytes m len input with
    | .error e => .error e
    | .ok n =>
      if capacityIn < encodeSize n then .ok (raise .insufficientBufferCapacity capacityIn)
      else .ok ⟨.success, encodeSize n, encodeWrites input n⟩

/-- `ENC.RAW` (R91). -/
def execEncRaw (s : State) : Host.Outcome State Fault Refusal := runCommand .enc .raw encodeOp s

/-- `ENC.STR` (R92). -/
def execEncStr (s : State) : Host.Outcome State Fault Refusal := runCommand .enc .str encodeOp s

end Sys2Proof.Machine
end

