-- ==== Sys2Proof/Machine/Dispatch.lean ====
section
/-! DEFINITION. Machine/Dispatch.lean: from a command to its meaning. -/

namespace Sys2Proof.Machine

-- The command, carried out by its unit from start to completion: R91, R92, R111, R112.
def exec (i : Instr) (s : State) : Host.Outcome State Fault Refusal :=
  match i with
  | .encRaw => Sys2Proof.Machine.execEncRaw s
  | .encStr => Sys2Proof.Machine.execEncStr s
  | .decRaw => Sys2Proof.Machine.execDecRaw s
  | .decStr => Sys2Proof.Machine.execDecStr s

end Sys2Proof.Machine
end

