-- ==== Sys2Proof/Machine/HostActions.lean ====
section
/-! DEFINITION. Machine/HostActions.lean: what each host action of 30_encoding.md R64 does (10_state.md R22 to R30,
20_memory.md R40, R45 to R47, 70_reset_and_hazards.md R188), and the spec's longer forms as sequences of actions. -/

namespace Sys2Proof.Machine

/-- Record what a host read returned. -/
def State.note (s : State) (x : Reading) : State := { s with readings := x :: s.readings }

/-- `RD r` (R22, R30): the reading is recorded, nothing else changes. -/
def hostRead (r : BitVec 3) (s : State) : State := s.note (.register r (s.readRegister r))

/-- One byte write of a `FILL`: the index must exist (R40), and the unit must be idle (R188, U4: log entry 5). -/
def hostPut (u : UnitId) (b : Buf) (a : Nat) (v : Byte) (s : State) : Host.Outcome State Fault Refusal :=
  if s.bufBytes u b ≤ a then .fault (.noSuchIndex u b a)
  else if (s.unit u).status.busy then .fault (.bufferWriteWhileBusy u b)
  else .next (s.setUnit u ((s.unit u).setBuf b (((s.unit u).buf b).write a v)))

/-- One byte read: the index must exist (R40). What a read of a busy unit's `OUT` returns has no meaning (R30, R188): a free
value, a new one for every such read (log entry 5). -/
def hostGet (u : UnitId) (b : Buf) (a : Nat) (s : State) : Host.Outcome State Fault Refusal :=
  if s.bufBytes u b ≤ a then .fault (.noSuchIndex u b a)
  else if (s.unit u).status.busy ∧ b = .output then
    .next { s.note (.byte u b a (Config.busyReadByte s.busyReads)) with busyReads := s.busyReads + 1 }
  else .next (s.note (.byte u b a (s.byteAt u b a)))

/-- `WAIT U` (R64): one read of `U.STATUS`; while it does not show `DONE = 1` the action stays at the front. -/
def hostWait (u : UnitId) (s : State) : State :=
  let t := hostRead (statusRegister u) s
  if (s.unit u).status.done then t else { t with program := .wait u :: t.program }

/-- A host action, on the state from which it has been taken off the program. -/
def hostPerform (a : HostAction) (s : State) : Host.Outcome State Fault Refusal :=
  match a with
  | .wr r v => .next (s.writeRegister r v)
  | .rd r => .next (hostRead r s)
  | .put u b i v => hostPut u b i v s
  | .get u b i => hostGet u b i s
  | .wait u => .next (hostWait u s)

/-- The host's turn: its next action, or nothing where it has none left (R193: the run is over). -/
def hostTurn (s : State) : Host.Outcome State Fault Refusal :=
  match s.program with
  | [] => .next s
  | a :: rest => hostPerform a { s with program := rest }

/-! ### The spec's longer forms (R64) -/

/-- `FILL U.IN, a, b0 b1 ...`. -/
def fillIn (u : UnitId) (a : Nat) (bytes : List Byte) : List HostAction :=
  bytes.zipIdx.map fun c => .put u .input (a + c.2) c.1

/-- `FILL U.OUT, a, count, v`. -/
def fillOut (u : UnitId) (a count : Nat) (v : Byte) : List HostAction :=
  (List.range count).map fun k => .put u .output (a + k) v

/-- `DUMP U.OUT, a, count`. -/
def dumpOut (u : UnitId) (a count : Nat) : List HostAction :=
  (List.range count).map fun k => .get u .output (a + k)

/-- The pseudo-form of a raw-mode command, `ENC.RAW len, cap` or `DEC.RAW len, cap`. -/
def rawCommand (u : UnitId) (len cap : Nat) : List HostAction :=
  [.wr (inLenRegister u) len, .wr (capRegister u) cap, .wr (cmdRegister u) 0]

/-- The pseudo-form of a string-mode command, `ENC.STR cap` or `DEC.STR cap`. -/
def strCommand (u : UnitId) (cap : Nat) : List HostAction :=
  [.wr (capRegister u) cap, .wr (cmdRegister u) 1]

end Sys2Proof.Machine
end

