-- ==== Sys2Proof/Machine/Turns.lean ====
section
/-! DEFINITION. Machine/Turns.lean: a unit's turn (10_state.md R29). The host's turn is in Machine/HostActions.lean, the
reset event and the order of turns in Machine/Ops.lean. -/

namespace Sys2Proof.Machine

/-- A unit's turn: if it is busy it fetches the command it was given, decodes it and carries it out (R29); an idle unit
does nothing ("Enabled when `U.STATUS.BUSY = 1`"). -/
def unitTurn (u : UnitId) (s : State) : Host.Outcome State Fault Refusal :=
  if (s.unit u).status.busy then exec (decodeCommand (s.fetchWord u)) s else .next s

end Sys2Proof.Machine
end

