-- ==== Sys2Proof/Machine/Step.lean ====
section
/-! DEFINITION. Machine/Step.lean: one step of the machine: the next turn is taken off the schedule and its agent moves
(10_state.md R20, R28, R29; 70_reset_and_hazards.md R180). -/

namespace Sys2Proof.Machine

/-- One step. -/
def step (s : State) : Host.Outcome State Fault Refusal :=
  match s.nextTurn with
  | .host => hostTurn s.popTurn
  | .unit u => unitTurn u s.popTurn
  | .reset => .next s.popTurn.resetEvent

/-- `s` with the command whose word is `w` given to its unit, and that unit's turn next: what a host's write of `U.CMD`
does to an idle unit (R28), so that the very next step fetches and runs exactly that command. -/
def State.withFetchWord (s : State) (nbits w : Nat) : State :=
  let c := BitVec.ofNat 2 (w % 2 ^ nbits)
  let u := unitOfOp (c.extractLsb' 1 1)
  let t := s.setUnit u ((s.unit u).start (modeOfBit (c.extractLsb' 0 1)))
  { t with schedule := .unit u :: s.schedule }

end Sys2Proof.Machine
end

