-- ==== Sys2Proof/Safety.lean ====
section
/-! DEFINITION. Safety.lean: the terms in which claims are made: the invariant of a state, the preconditions under which the
spec gives a command a meaning, what the encoded and the decoded bytes are, said bit by bit from 30_encoding.md R71 to R76
without the model's own group functions, and the frame of a command. -/

namespace Sys2Proof.Machine

/-! ### The invariant -/

/-- `U.STATUS` as R25 and R62 limit it: codes 4 to 7 never, `BUSY` and `DONE` never both, a nonzero code only with `DONE`. -/
abbrev Status.wf (x : Status) : Prop :=
  x.code.toNat ≤ 3 ∧ ¬(x.busy = true ∧ x.done = true) ∧ (x.done = false → x.code = 0#3)

/-- A buffer of `size` bytes: canonical, and nothing outside `0 .. size-1` (R40). -/
abbrev Memory.fits (m : Memory) (size : Nat) : Prop := m.wf ∧ ∀ c ∈ m, c.1 < size

/-- A unit: registers within `LEN_W` bits (R26, R27), flags and buffers as above. -/
abbrev UnitState.wf (x : UnitState) (lenW inSize outSize : Nat) : Prop :=
  x.inLen < 2 ^ lenW ∧ x.cap < 2 ^ lenW ∧ x.status.wf ∧ x.inBuf.fits inSize ∧ x.outBuf.fits outSize

/-- The invariant: legal parameters (R5) and both units well-formed. -/
abbrev State.wf (s : State) : Prop :=
  s.params.wellFormed = true ∧ s.enc.wf s.params.lenW (s.inBytes .enc) (s.outBytes .enc) ∧
    s.dec.wf s.params.lenW (s.inBytes .dec) (s.outBytes .dec)

/-! ### Preconditions of a command -/

/-- `P_CAP` (R44): the offered capacity is within the output buffer. -/
abbrev State.capacityFits (s : State) (u : UnitId) : Prop := (s.unit u).cap ≤ s.outBytes u

/-- `n` is the length of the logical input in mode `m` (R140): in raw mode the count, which must be within the buffer
(`P_LEN`, R143); in string mode the least index with a zero byte (`P_TERM`). -/
abbrev State.resolves (s : State) (u : UnitId) (m : Mode) (n : Nat) : Prop :=
  match m with
  | .raw => n = (s.unit u).inLen ∧ n ≤ s.inBytes u
  | .str => n < s.inBytes u ∧ s.inByte u n = 0#8 ∧ ∀ a < n, s.inByte u a ≠ 0#8

/-- Some byte of `U.IN` is zero: `P_TERM` (R143). -/
abbrev State.hasTerminator (s : State) (u : UnitId) : Prop := ∃ a < s.inBytes u, s.inByte u a = 0#8

/-! ### Registers and tables, as the spec's tables list them -/

/-- The number of register `k` of a unit in the table of R22: 0 to 3 for `ENC`, 4 to 7 for `DEC`. -/
def registerNumber (u : UnitId) (k : Nat) : BitVec 3 :=
  match u with
  | .enc => BitVec.ofNat 3 k
  | .dec => BitVec.ofNat 3 (4 + k)

/-- The value of register `k` of a unit as R22 and R25 lay it out: `CMD` is bit 0 `MODE`; `STATUS` is `CODE` in bits 2:0,
`DONE` in bit 3, `BUSY` in bit 4. -/
def registerValue (x : UnitState) : Nat → Nat
  | 0 => if x.mode = .raw then 0 else 1
  | 1 => x.inLen
  | 2 => x.cap
  | _ => x.status.code.toNat + (if x.status.done then 8 else 0) + (if x.status.busy then 16 else 0)

/-- The column `byte` of the table of R66, index 0 first. -/
def alphabetListing : List Byte :=
  [0x41, 0x42, 0x43, 0x44, 0x45, 0x46, 0x47, 0x48, 0x49, 0x4A, 0x4B, 0x4C, 0x4D, 0x4E, 0x4F, 0x50]
    ++ [0x51, 0x52, 0x53, 0x54, 0x55, 0x56, 0x57, 0x58, 0x59, 0x5A, 0x61, 0x62, 0x63, 0x64, 0x65, 0x66]
    ++ [0x67, 0x68, 0x69, 0x6A, 0x6B, 0x6C, 0x6D, 0x6E, 0x6F, 0x70, 0x71, 0x72, 0x73, 0x74, 0x75, 0x76]
    ++ [0x77, 0x78, 0x79, 0x7A, 0x30, 0x31, 0x32, 0x33, 0x34, 0x35, 0x36, 0x37, 0x38, 0x39, 0x2B, 0x2F]

/-! ### The transformation, bit by bit -/

/-- `output` begins with the Base64 text of the first `n` bytes of `input`: the full groups (R71, R94), then the final
partial group of two bytes or of one (R72, R95). -/
def EncodesTo (input output : Nat → Byte) (n : Nat) : Prop :=
  (∀ g < n / 3,
    output (4 * g) = alpha ((input (3 * g)).extractLsb' 2 6) ∧
    output (4 * g + 1) = alpha ((input (3 * g)).extractLsb' 0 2 ++ (input (3 * g + 1)).extractLsb' 4 4) ∧
    output (4 * g + 2) = alpha ((input (3 * g + 1)).extractLsb' 0 4 ++ (input (3 * g + 2)).extractLsb' 6 2) ∧
    output (4 * g + 3) = alpha ((input (3 * g + 2)).extractLsb' 0 6)) ∧
  (n % 3 = 2 →
    output (4 * (n / 3)) = alpha ((input (3 * (n / 3))).extractLsb' 2 6) ∧
    output (4 * (n / 3) + 1) =
      alpha ((input (3 * (n / 3))).extractLsb' 0 2 ++ (input (3 * (n / 3) + 1)).extractLsb' 4 4) ∧
    output (4 * (n / 3) + 2) = alpha ((input (3 * (n / 3) + 1)).extractLsb' 0 4 ++ 0b00#2) ∧
    output (4 * (n / 3) + 3) = 0x3D#8) ∧
  (n % 3 = 1 →
    output (4 * (n / 3)) = alpha ((input (3 * (n / 3))).extractLsb' 2 6) ∧
    output (4 * (n / 3) + 1) = alpha ((input (3 * (n / 3))).extractLsb' 0 2 ++ 0b0000#4) ∧
    output (4 * (n / 3) + 2) = 0x3D#8 ∧
    output (4 * (n / 3) + 3) = 0x3D#8)

/-- `p` is the pad count of a logical input of `n` bytes (R76 (b), R114). -/
def PadsOf (input : Nat → Byte) (n p : Nat) : Prop :=
  (p = 2 ∧ input (n - 1) = 0x3D#8 ∧ input (n - 2) = 0x3D#8) ∨
  (p = 1 ∧ input (n - 1) = 0x3D#8 ∧ input (n - 2) ≠ 0x3D#8) ∨
  (p = 0 ∧ input (n - 1) ≠ 0x3D#8)

/-- The first `n` bytes of `input` are legal text with `p` pads (R76). -/
def LegalText (input : Nat → Byte) (n p : Nat) : Prop :=
  0 < n ∧ n % 4 = 0 ∧ PadsOf input n p ∧ ∀ i < n - p, ∃ v, rev (input i) = some v

/-- The first `req` bytes of `output` are what text `input` of `n` bytes stands for (R73, R74): byte `k` of group `g` comes
from the values of two of the group's symbols. -/
def DecodesTo (input output : Nat → Byte) (n req : Nat) : Prop :=
  ∀ g < n / 4,
    (∀ s0 s1 : Sextet, rev (input (4 * g)) = some s0 → rev (input (4 * g + 1)) = some s1 →
      output (3 * g) = s0 ++ s1.extractLsb' 4 2) ∧
    (3 * g + 1 < req → ∀ s1 s2 : Sextet, rev (input (4 * g + 1)) = some s1 → rev (input (4 * g + 2)) = some s2 →
      output (3 * g + 1) = s1.extractLsb' 0 4 ++ s2.extractLsb' 2 4) ∧
    (3 * g + 2 < req → ∀ s2 s3 : Sextet, rev (input (4 * g + 2)) = some s2 → rev (input (4 * g + 3)) = some s3 →
      output (3 * g + 2) = s2.extractLsb' 0 2 ++ s3)

/-- The bits that the pads leave over are zero (R74): `S1[3:0]` with two pads, `S2[1:0]` with one. -/
def DiscardedBitsZero (input : Nat → Byte) (n p : Nat) : Prop :=
  (p = 2 → ∀ s1 : Sextet, rev (input (n - 3)) = some s1 → s1.extractLsb' 0 4 = 0#4) ∧
  (p = 1 → ∀ s2 : Sextet, rev (input (n - 2)) = some s2 → s2.extractLsb' 0 2 = 0#2)

/-! ### The frame of a command -/

/-- What a command of unit `u` leaves alone whatever it does: the other unit, its own `IN_LEN` and `IN` (R26, R45), the
parameters and everything outside the units. -/
def CommandFrame (u : UnitId) (s t : State) : Prop :=
  t.params = s.params ∧ t.unit u.other = s.unit u.other ∧ (t.unit u).inLen = (s.unit u).inLen ∧
  (t.unit u).inBuf = (s.unit u).inBuf ∧ t.launch = s.launch ∧ t.busyReads = s.busyReads ∧
  t.program = s.program ∧ t.schedule = s.schedule ∧ t.readings = s.readings

/-- The state after a command of unit `u` in mode `m` that ended with the failing code `code`: only the mode and the status
differ (R155 to R157). -/
def State.failed (s : State) (u : UnitId) (m : Mode) (code : BitVec 3) : State :=
  s.setUnit u { s.unit u with mode := m, status := ⟨code, true, false⟩ }

end Sys2Proof.Machine
end

