-- ==== Sys2Proof/Certificates/Slice0/Obligations.lean ====
section
/-! DEFINITION. Certificates/Slice0/Obligations.lean: the statements for the provers. Each docstring names the rule of spec/
it comes from; the witnesses that its hypotheses can be met are in Tests/Slice0.lean. -/

open Sys2Proof Sys2Proof.Machine

/-! ### Tables and encodings -/

/-- R66: `ALPHA[v]` is the byte the table lists at index `v`; the 64 bytes are pairwise different. -/
def Obligations.AlphabetMatchesTheTable : Prop :=
  alphabetListing.length = 64 ∧ alphabetListing.Nodup ∧ ∀ v : Sextet, alphabetListing[v.toNat]? = some (alpha v)

/-- R68: `REV` by its ten ranges of byte values; exactly 64 of the 256 entries are valid; `PAD` is invalid. -/
def Obligations.ReverseTableByRanges : Prop :=
  (∀ b : Byte,
    (b.toNat ≤ 0x2A → rev b = none) ∧
    (b.toNat = 0x2B → rev b = some 62#6) ∧
    (0x2C ≤ b.toNat → b.toNat ≤ 0x2E → rev b = none) ∧
    (b.toNat = 0x2F → rev b = some 63#6) ∧
    (0x30 ≤ b.toNat → b.toNat ≤ 0x39 → rev b = some (BitVec.ofNat 6 (b.toNat - 0x30 + 52))) ∧
    (0x3A ≤ b.toNat → b.toNat ≤ 0x40 → rev b = none) ∧
    (0x41 ≤ b.toNat → b.toNat ≤ 0x5A → rev b = some (BitVec.ofNat 6 (b.toNat - 0x41))) ∧
    (0x5B ≤ b.toNat → b.toNat ≤ 0x60 → rev b = none) ∧
    (0x61 ≤ b.toNat → b.toNat ≤ 0x7A → rev b = some (BitVec.ofNat 6 (b.toNat - 0x61 + 26))) ∧
    (0x7B ≤ b.toNat → rev b = none)) ∧
  ((List.range 256).filter fun k => (rev (BitVec.ofNat 8 k)).isSome).length = 64 ∧ rev 0x3D#8 = none

/-- R69: `REV` is the inverse of `ALPHA`. -/
def Obligations.ReverseTableInvertsAlphabet : Prop :=
  (∀ v : Sextet, rev (alpha v) = some v) ∧ ∀ (b : Byte) (v : Sextet), rev b = some v → alpha v = b

/-- R60, R61: the four command words, written out bit by bit, are the four commands, each of its unit in its mode. -/
def Obligations.CommandWordsAreTheFourCommands : Prop :=
  decodeCommand 0b00#2 = .encRaw ∧ decodeCommand 0b01#2 = .encStr ∧
  decodeCommand 0b10#2 = .decRaw ∧ decodeCommand 0b11#2 = .decStr ∧
  Instr.encRaw.unit = .enc ∧ Instr.encRaw.mode = .raw ∧ Instr.encStr.unit = .enc ∧ Instr.encStr.mode = .str ∧
  Instr.decRaw.unit = .dec ∧ Instr.decRaw.mode = .raw ∧ Instr.decStr.unit = .dec ∧ Instr.decStr.mode = .str

/-- Decoding an encoded command gives it back, whatever bytes follow, and encoding a decoded word gives it back. That a word stands
in bits 1:0 of one byte is the model's choice (log entry 7). -/
def Obligations.DecodeAndEncodeAgree : Prop :=
  (∀ (i : Instr) (rest : List Byte), i.wellFormed = true → decode (encode i ++ rest) = .ok (i, rest)) ∧
  ∀ w : BitVec 2, commandWord (decodeCommand w) = w

/-- R62: the codes of the five kinds; `ENC` commands end with code 0 or 1 only and `DEC` commands with 0 to 3 only, and each
of those codes is produced by each command it is listed for. -/
def Obligations.StatusCodesAndTheirProducers : Prop :=
  (statusCode .success = 0b000#3 ∧ statusCode .insufficientBufferCapacity = 0b001#3 ∧
    statusCode .malformedInputLength = 0b010#3 ∧ statusCode .invalidCharacter = 0b011#3 ∧
    statusCode .nullOrEmptyInput = 0b100#3) ∧
  (∀ (m : Mode) (s t : State), exec (instrOf .enc m) s = .next t → t.enc.status.code.toNat ≤ 1) ∧
  (∀ (m : Mode) (s t : State), exec (instrOf .dec m) s = .next t → t.dec.status.code.toNat ≤ 3) ∧
  (∀ (m : Mode) (c : BitVec 3), c.toNat ≤ 1 → ∃ s t, exec (instrOf .enc m) s = .next t ∧ t.enc.status.code = c) ∧
  ∀ (m : Mode) (c : BitVec 3), c.toNat ≤ 3 → ∃ s t, exec (instrOf .dec m) s = .next t ∧ t.dec.status.code = c

/-! ### The machine: reset, steps, registers, buffers -/

/-- R34: the values after reset. The buffer bytes are the free values of the launch; that the parameters are a legal choice
(R5) is part of `ResetStateIsWellFormed`. -/
def Obligations.ResetValuesOfEveryState : Prop :=
  ∀ u : UnitId,
    (State.reset.unit u).mode = .raw ∧ (State.reset.unit u).inLen = 0 ∧ (State.reset.unit u).cap = 0 ∧
    (State.reset.unit u).status.code = 0#3 ∧ (State.reset.unit u).status.done = false ∧
    (State.reset.unit u).status.busy = false ∧
    ∀ (b : Buf) (a : Nat), State.reset.byteAt u b a = Config.launchByte State.reset.launch u b a

/-- R180, R181: the reset event, in any state: every register of both units 0, whatever the units were doing; every byte of
every buffer is a free value of a new launch; the parameters are untouched. That the buffers are drawn anew is the model's form of
"unspecified" (log entry 3). That the host's program, the schedule but for the turn, the readings and the count of free reads are
kept is the model's choice (log entry 12, DESIGN CHOICE): R180 says nothing of the host. -/
def Obligations.ResetEventClearsBothUnits : Prop :=
  ∀ s : State, s.nextTurn = .reset → ∃ t, step s = .next t ∧
    (∀ u : UnitId, (t.unit u).mode = .raw ∧ (t.unit u).inLen = 0 ∧ (t.unit u).cap = 0 ∧
      (t.unit u).status = ⟨0#3, false, false⟩ ∧
      ∀ (b : Buf) (a : Nat), t.byteAt u b a = Config.launchByte (s.launch + 1) u b a) ∧
    t.params = s.params ∧ t.program = s.program ∧ t.schedule = s.schedule.tail ∧ t.readings = s.readings ∧
    t.busyReads = s.busyReads

/-- A step runs the decoded command: on the turn of a busy unit, step is exec of the command that the unit's command word
decodes to, on the state with the turn taken off the schedule (R28, R29, R60). The fetch from the unit and the byte that holds the
word are the model's forms (log entries 1 and 7). -/
def Obligations.StepRunsTheDecodedCommand : Prop :=
  ∀ (s : State) (u : UnitId), s.nextTurn = .unit u → (s.unit u).status.busy = true →
    (∀ i rest, decode ((s.fetchWord u).zeroExtend 8 :: []) = .ok (i, rest) → step s = exec i s.popTurn) ∧
    step s = exec (instrOf u (s.unit u).mode) s.popTurn

/-- Whose turn it is: the head of the schedule, else (the model's choice, log entry 6) `ENC` if busy, `DEC` if busy, the host;
and turns with nothing to do change nothing but the schedule (an idle unit: R29; a host with no action left: R193). -/
def Obligations.TurnsAndIdleTurns : Prop :=
  (∀ (s : State) (k : Turn) (rest : List Turn), s.schedule = k :: rest → s.nextTurn = k) ∧
  (∀ s : State, s.schedule = [] → s.enc.status.busy = true → s.nextTurn = .unit .enc) ∧
  (∀ s : State, s.schedule = [] → s.enc.status.busy = false → s.dec.status.busy = true → s.nextTurn = .unit .dec) ∧
  (∀ s : State, s.schedule = [] → s.enc.status.busy = false → s.dec.status.busy = false → s.nextTurn = .host) ∧
  (∀ (s : State) (u : UnitId), s.nextTurn = .unit u → (s.unit u).status.busy = false →
    step s = .next { s with schedule := s.schedule.tail }) ∧
  ∀ s : State, s.nextTurn = .host → s.program = [] → step s = .next { s with schedule := s.schedule.tail }

/-- R28: a host write to `U.CMD` of an idle unit is the start step: bit 0 of the value goes to `MODE`, `BUSY` 1, `DONE` 0,
`CODE` 0, and nothing else changes. The command so given is the one of that unit in that mode. -/
def Obligations.CommandWriteStartsTheUnit : Prop :=
  ∀ (s : State) (u : UnitId) (v : Nat) (rest : List HostAction), s.nextTurn = .host →
    s.program = .wr (registerNumber u 0) v :: rest → (s.unit u).status.busy = false →
    ∃ t, step s = .next t ∧
      t = { s with program := rest, schedule := s.schedule.tail }.setUnit u
        { s.unit u with mode := if v % 2 = 0 then .raw else .str, status := ⟨0#3, false, true⟩ } ∧
      decodeCommand (t.fetchWord u) = instrOf u (if v % 2 = 0 then .raw else .str)

/-- R22, R26, R27: a host write to `IN_LEN` or `CAP` of an idle unit stores the low `LEN_W` bits; a write to `STATUS` is
ignored. -/
def Obligations.RegisterWritesOfAnIdleUnit : Prop :=
  ∀ (s : State) (u : UnitId) (v : Nat) (rest : List HostAction), s.nextTurn = .host → (s.unit u).status.busy = false →
    (s.program = .wr (registerNumber u 1) v :: rest →
      step s = .next ({ s with program := rest, schedule := s.schedule.tail }.setUnit u
        { s.unit u with inLen := v % 2 ^ s.params.lenW })) ∧
    (s.program = .wr (registerNumber u 2) v :: rest →
      step s = .next ({ s with program := rest, schedule := s.schedule.tail }.setUnit u
        { s.unit u with cap := v % 2 ^ s.params.lenW })) ∧
    (s.program = .wr (registerNumber u 3) v :: rest →
      step s = .next { s with program := rest, schedule := s.schedule.tail })

/-- R30, R189: while a unit is busy a host write to any of its registers is ignored, a command among them: it is dropped. -/
def Obligations.BusyUnitIgnoresRegisterWrites : Prop :=
  ∀ (s : State) (u : UnitId) (k v : Nat) (rest : List HostAction), k ≤ 3 → s.nextTurn = .host →
    s.program = .wr (registerNumber u k) v :: rest → (s.unit u).status.busy = true →
    step s = .next { s with program := rest, schedule := s.schedule.tail }

/-- R22, R25, R30: a host read of any of the eight registers, busy or not, returns its current value, zero-extended, and
changes nothing but the record of readings, which is the model's own (log entry 13). -/
def Obligations.RegisterReadsReturnTheCurrentValue : Prop :=
  ∀ (s : State) (u : UnitId) (k : Nat) (rest : List HostAction), k ≤ 3 → s.nextTurn = .host →
    s.program = .rd (registerNumber u k) :: rest →
    step s = .next { s with program := rest, schedule := s.schedule.tail,
                            readings := .register (registerNumber u k) (registerValue (s.unit u) k) :: s.readings }

/-- R40, R47, R57: a host byte write within the buffer of an idle unit puts the value at that index; every other byte of every
buffer and every register are unchanged. -/
def Obligations.BufferWriteChangesOneByte : Prop :=
  ∀ (s : State) (u : UnitId) (b : Buf) (a : Nat) (v : Byte) (rest : List HostAction), s.nextTurn = .host →
    s.program = .put u b a v :: rest → a < s.bufBytes u b → (s.unit u).status.busy = false →
    ∃ t, step s = .next t ∧ t.byteAt u b a = v ∧
      (∀ u' b' a', ¬ (u' = u ∧ b' = b ∧ a' = a) → t.byteAt u' b' a' = s.byteAt u' b' a') ∧
      (∀ u', (t.unit u').mode = (s.unit u').mode ∧ (t.unit u').inLen = (s.unit u').inLen ∧
        (t.unit u').cap = (s.unit u').cap ∧ (t.unit u').status = (s.unit u').status) ∧
      t.params = s.params ∧ t.launch = s.launch ∧ t.busyReads = s.busyReads ∧ t.program = rest ∧
      t.schedule = s.schedule.tail ∧ t.readings = s.readings

/-- R40, R46: a host byte read within a buffer returns the byte and changes nothing but the record of readings, except of a
busy unit's `OUT`. The record is the model's own (log entry 13). -/
def Obligations.BufferReadReturnsTheByte : Prop :=
  ∀ (s : State) (u : UnitId) (b : Buf) (a : Nat) (rest : List HostAction), s.nextTurn = .host →
    s.program = .get u b a :: rest → a < s.bufBytes u b → ((s.unit u).status.busy = false ∨ b = .input) →
    step s = .next { s with program := rest, schedule := s.schedule.tail,
                            readings := .byte u b a (s.byteAt u b a) :: s.readings }

/-- R30, R188: a host read of a busy unit's `OUT` has no meaning. The machine goes on and what is read is a free value (log
entry 5); no unit changes. -/
def Obligations.BusyOutputReadIsFree : Prop :=
  ∀ (s : State) (u : UnitId) (a : Nat) (rest : List HostAction), s.nextTurn = .host →
    s.program = .get u .output a :: rest → a < s.outBytes u → (s.unit u).status.busy = true →
    step s = .next { s with program := rest, schedule := s.schedule.tail, busyReads := s.busyReads + 1,
                            readings := .byte u .output a (Config.busyReadByte s.busyReads) :: s.readings }

/-- Where a host action stops the machine: an index outside a buffer (R40), and a write to a buffer of a busy unit (R188;
93_implementation_defined.md U4 lets a model make it a fault, log entry 5). -/
def Obligations.HostBufferFaults : Prop :=
  (∀ (s : State) (u : UnitId) (b : Buf) (a : Nat) (v : Byte) (rest : List HostAction), s.nextTurn = .host →
    s.program = .put u b a v :: rest → s.bufBytes u b ≤ a → step s = .fault (.noSuchIndex u b a)) ∧
  (∀ (s : State) (u : UnitId) (b : Buf) (a : Nat) (rest : List HostAction), s.nextTurn = .host →
    s.program = .get u b a :: rest → s.bufBytes u b ≤ a → step s = .fault (.noSuchIndex u b a)) ∧
  ∀ (s : State) (u : UnitId) (b : Buf) (a : Nat) (v : Byte) (rest : List HostAction), s.nextTurn = .host →
    s.program = .put u b a v :: rest → a < s.bufBytes u b → (s.unit u).status.busy = true →
    step s = .fault (.bufferWriteWhileBusy u b)

/-- R64: `WAIT U` reads `U.STATUS`; the action is over when `DONE = 1` was read, and stays the next one otherwise (the
model's form of the loop, log entry 13). -/
def Obligations.WaitReadsStatusUntilDone : Prop :=
  ∀ (s : State) (u : UnitId) (rest : List HostAction), s.nextTurn = .host → s.program = .wait u :: rest →
    step s = .next { s with program := if (s.unit u).status.done = true then rest else .wait u :: rest,
                            schedule := s.schedule.tail,
                            readings := .register (registerNumber u 3) (registerValue (s.unit u) 3) :: s.readings }

/-! ### The encoder -/

/-- R94, R95, R96: with its preconditions met and a capacity of at least `ceil(n/3)*4`, `ENC.RAW` (`n = IN_LEN`) and `ENC.STR`
(`n` the index of the first zero byte, `IN_LEN` anything, R141) end with `Success`; `CAP` is the number of bytes written, `OUT`
begins with the Base64 text of `in[0 .. n-1]`, every byte from `CAP` on is as before, and nothing else changes but `MODE` and
`STATUS`. -/
def Obligations.EncoderEncodesTheLogicalInput : Prop :=
  (∀ s : State, s.enc.cap ≤ s.outBytes .enc → s.enc.inLen ≤ s.inBytes .enc → (s.enc.inLen + 2) / 3 * 4 ≤ s.enc.cap →
    ∃ t, exec .encRaw s = .next t ∧ t.enc.mode = .raw ∧ t.enc.status = ⟨0#3, true, false⟩ ∧
      t.enc.cap = (s.enc.inLen + 2) / 3 * 4 ∧
      EncodesTo (s.inByte .enc) (t.outByte .enc) s.enc.inLen ∧
      (∀ a, (s.enc.inLen + 2) / 3 * 4 ≤ a → t.outByte .enc a = s.outByte .enc a) ∧ CommandFrame .enc s t) ∧
  ∀ (s : State) (n : Nat), s.enc.cap ≤ s.outBytes .enc → n < s.inBytes .enc → s.inByte .enc n = 0x00#8 →
    (∀ a < n, s.inByte .enc a ≠ 0x00#8) → (n + 2) / 3 * 4 ≤ s.enc.cap →
    ∃ t, exec .encStr s = .next t ∧ t.enc.mode = .str ∧ t.enc.status = ⟨0#3, true, false⟩ ∧
      t.enc.cap = (n + 2) / 3 * 4 ∧ EncodesTo (s.inByte .enc) (t.outByte .enc) n ∧
      (∀ a, (n + 2) / 3 * 4 ≤ a → t.outByte .enc a = s.outByte .enc a) ∧ CommandFrame .enc s t

/-- R93: the required size is `ceil(n/3)*4`, as a natural number. A capacity below it ends either `ENC` command with
`InsufficientBufferCapacity`: no byte is written, `CAP` keeps its value, nothing changes but `MODE` and `STATUS`. A capacity equal
to it or above passes. -/
def Obligations.EncoderCapacityCheck : Prop :=
  ∀ (s : State) (n : Nat), s.capacityFits .enc →
    (s.resolves .enc .raw n →
      (s.enc.cap < (n + 2) / 3 * 4 → exec .encRaw s = .next (s.failed .enc .raw 1#3)) ∧
      ((n + 2) / 3 * 4 ≤ s.enc.cap → ∃ t, exec .encRaw s = .next t ∧ t.enc.status.code = 0#3)) ∧
    (s.resolves .enc .str n →
      (s.enc.cap < (n + 2) / 3 * 4 → exec .encStr s = .next (s.failed .enc .str 1#3)) ∧
      ((n + 2) / 3 * 4 ≤ s.enc.cap → ∃ t, exec .encStr s = .next t ∧ t.enc.status.code = 0#3))

/-- R97 (a), (b), (d): after a successful encode of `n` bytes, `CAP = ceil(n/3)*4`; the pads are exactly the last
`(3 - n mod 3) mod 3` bytes; every other output byte is one of the 64 of `ALPHA`. -/
def Obligations.EncoderLengthAndPaddingLaws : Prop :=
  ∀ (m : Mode) (s t : State) (n : Nat), exec (instrOf .enc m) s = .next t → t.enc.status.code = 0#3 →
    s.resolves .enc m n →
    t.enc.cap = (n + 2) / 3 * 4 ∧
    (∀ a < t.enc.cap, t.outByte .enc a = 0x3D#8 ↔ t.enc.cap ≤ a + (3 - n % 3) % 3) ∧
    ∀ a < t.enc.cap, t.outByte .enc a ≠ 0x3D#8 → ∃ v : Sextet, t.outByte .enc a = alpha v

/-- R97 (e): the output of a successful encode of at least one byte is legal decoder input with its discarded bits zero. -/
def Obligations.EncoderOutputIsLegalText : Prop :=
  ∀ (m : Mode) (s t : State) (n : Nat), exec (instrOf .enc m) s = .next t → t.enc.status.code = 0#3 →
    s.resolves .enc m n → 1 ≤ n →
    LegalText (t.outByte .enc) t.enc.cap ((3 - n % 3) % 3) ∧
    DiscardedBitsZero (t.outByte .enc) t.enc.cap ((3 - n % 3) % 3)

/-- R97 (f): different inputs give different outputs. -/
def Obligations.EncoderIsInjective : Prop :=
  ∀ (m m' : Mode) (s s' t t' : State) (n n' : Nat),
    exec (instrOf .enc m) s = .next t → t.enc.status.code = 0#3 → s.resolves .enc m n →
    exec (instrOf .enc m') s' = .next t' → t'.enc.status.code = 0#3 → s'.resolves .enc m' n' →
    t.enc.cap = t'.enc.cap → (∀ a < t.enc.cap, t.outByte .enc a = t'.outByte .enc a) →
    n = n' ∧ ∀ a < n, s.inByte .enc a = s'.inByte .enc a

/-! ### The decoder -/

/-- R118, R119, R120: with its preconditions met, legal text of `n` bytes with `p` pads and a capacity of at least
`(n/4)*3 - p`, `DEC.RAW` (`n = IN_LEN`) and `DEC.STR` (`n` the index of the first zero byte) end with `Success`; `CAP` is that
count, `OUT` begins with the bytes the text stands for, every byte from `CAP` on is as before, and nothing else changes but
`MODE` and `STATUS`. -/
def Obligations.DecoderDecodesTheLogicalInput : Prop :=
  (∀ (s : State) (p : Nat), s.dec.cap ≤ s.outBytes .dec → s.dec.inLen ≤ s.inBytes .dec →
    LegalText (s.inByte .dec) s.dec.inLen p → s.dec.inLen / 4 * 3 - p ≤ s.dec.cap →
    ∃ t, exec .decRaw s = .next t ∧ t.dec.mode = .raw ∧ t.dec.status = ⟨0#3, true, false⟩ ∧
      t.dec.cap = s.dec.inLen / 4 * 3 - p ∧
      DecodesTo (s.inByte .dec) (t.outByte .dec) s.dec.inLen (s.dec.inLen / 4 * 3 - p) ∧
      (∀ a, s.dec.inLen / 4 * 3 - p ≤ a → t.outByte .dec a = s.outByte .dec a) ∧ CommandFrame .dec s t) ∧
  ∀ (s : State) (n p : Nat), s.dec.cap ≤ s.outBytes .dec → n < s.inBytes .dec → s.inByte .dec n = 0x00#8 →
    (∀ a < n, s.inByte .dec a ≠ 0x00#8) → LegalText (s.inByte .dec) n p → n / 4 * 3 - p ≤ s.dec.cap →
    ∃ t, exec .decStr s = .next t ∧ t.dec.mode = .str ∧ t.dec.status = ⟨0#3, true, false⟩ ∧
      t.dec.cap = n / 4 * 3 - p ∧ DecodesTo (s.inByte .dec) (t.outByte .dec) n (n / 4 * 3 - p) ∧
      (∀ a, n / 4 * 3 - p ≤ a → t.outByte .dec a = s.outByte .dec a) ∧ CommandFrame .dec s t

/-- R113: a length that is 0 or not a multiple of 4 ends either `DEC` command with `MalformedInputLength`, whatever the bytes
and the capacity are; nothing changes but `MODE` and `STATUS`. -/
def Obligations.DecoderMalformedLength : Prop :=
  (∀ (s : State) (n : Nat), s.capacityFits .dec → s.resolves .dec .raw n → (n = 0 ∨ n % 4 ≠ 0) →
    exec .decRaw s = .next (s.failed .dec .raw 2#3)) ∧
  ∀ (s : State) (n : Nat), s.capacityFits .dec → s.resolves .dec .str n → (n = 0 ∨ n % 4 ≠ 0) →
    exec .decStr s = .next (s.failed .dec .str 2#3)

/-- R114, R115: with a positive multiple of 4 bytes, a byte before the `p` trailing pads that is no symbol ends either `DEC`
command with `InvalidCharacter`, whatever the capacity is; nothing changes but `MODE` and `STATUS`. -/
def Obligations.DecoderInvalidCharacter : Prop :=
  (∀ (s : State) (n p i : Nat), s.capacityFits .dec → s.resolves .dec .raw n → 0 < n → n % 4 = 0 →
    PadsOf (s.inByte .dec) n p → i < n - p → rev (s.inByte .dec i) = none →
    exec .decRaw s = .next (s.failed .dec .raw 3#3)) ∧
  ∀ (s : State) (n p i : Nat), s.capacityFits .dec → s.resolves .dec .str n → 0 < n → n % 4 = 0 →
    PadsOf (s.inByte .dec) n p → i < n - p → rev (s.inByte .dec i) = none →
    exec .decStr s = .next (s.failed .dec .str 3#3)

/-- R117: the capacity is checked last, on legal text. One below `(n/4)*3 - p` ends either `DEC` command with
`InsufficientBufferCapacity`: nothing is written, `CAP` keeps its value, nothing changes but `MODE` and `STATUS`. One equal to it
or above passes; the host's estimate `ceil(n/4)*3` is never smaller. -/
def Obligations.DecoderCapacityCheck : Prop :=
  ∀ (s : State) (n p : Nat), s.capacityFits .dec → LegalText (s.inByte .dec) n p →
    (s.resolves .dec .raw n →
      (s.dec.cap < n / 4 * 3 - p → exec .decRaw s = .next (s.failed .dec .raw 1#3)) ∧
      (n / 4 * 3 - p ≤ s.dec.cap → ∃ t, exec .decRaw s = .next t ∧ t.dec.status.code = 0#3)) ∧
    (s.resolves .dec .str n →
      (s.dec.cap < n / 4 * 3 - p → exec .decStr s = .next (s.failed .dec .str 1#3)) ∧
      (n / 4 * 3 - p ≤ s.dec.cap → ∃ t, exec .decStr s = .next t ∧ t.dec.status.code = 0#3)) ∧
    n / 4 * 3 - p ≤ (n + 3) / 4 * 3

/-- R122 (a): the size of a successful decode, and its remainder by the pad count. -/
def Obligations.DecoderSizeLaw : Prop :=
  ∀ (m : Mode) (s t : State) (n p : Nat), exec (instrOf .dec m) s = .next t → t.dec.status.code = 0#3 →
    s.resolves .dec m n → PadsOf (s.inByte .dec) n p →
    t.dec.cap = n / 4 * 3 - p ∧ 1 ≤ t.dec.cap ∧ t.dec.cap ≤ n / 4 * 3 ∧
    (p = 0 → t.dec.cap % 3 = 0) ∧ (p = 1 → t.dec.cap % 3 = 2) ∧ (p = 2 → t.dec.cap % 3 = 1)

/-- R74: the bits the pads leave over are not looked at. Two legal texts with `p` pads that differ only in them (in `S1[3:0]` of
the byte at `n-3` for two pads, in `S2[1:0]` of the byte at `n-2` for one) decode to the same bytes. -/
def Obligations.DiscardedBitsAreNotChecked : Prop :=
  ∀ (m : Mode) (s s' : State) (n p : Nat), s'.params = s.params → s.capacityFits .dec → s'.dec.cap = s.dec.cap →
    s.resolves .dec m n → s'.resolves .dec m n → LegalText (s.inByte .dec) n p → LegalText (s'.inByte .dec) n p →
    n / 4 * 3 - p ≤ s.dec.cap → 1 ≤ p →
    (∀ i < n, i ≠ n - 4 + (3 - p) → s'.inByte .dec i = s.inByte .dec i) →
    (∀ v v' : Sextet, rev (s.inByte .dec (n - 4 + (3 - p))) = some v → rev (s'.inByte .dec (n - 4 + (3 - p))) = some v' →
      (p = 2 → v.extractLsb' 4 2 = v'.extractLsb' 4 2) ∧ (p = 1 → v.extractLsb' 2 4 = v'.extractLsb' 2 4)) →
    ∃ t t', exec (instrOf .dec m) s = .next t ∧ exec (instrOf .dec m) s' = .next t' ∧
      t.dec.status = ⟨0#3, true, false⟩ ∧ t'.dec.status = t.dec.status ∧ t'.dec.cap = t.dec.cap ∧
      ∀ a < t.dec.cap, t'.outByte .dec a = t.outByte .dec a

/-! ### Both operations -/

/-- R121: the round trip. If an encode of `n >= 1` bytes succeeds, a decode whose logical input is that text and whose capacity
is at least `n` succeeds with exactly those bytes, whatever the two modes are. -/
def Obligations.EncodeThenDecodeGivesTheBytesBack : Prop :=
  ∀ (m m' : Mode) (s t s' : State) (n : Nat),
    exec (instrOf .enc m) s = .next t → t.enc.status.code = 0#3 → s.resolves .enc m n → 1 ≤ n →
    s'.capacityFits .dec → s'.resolves .dec m' t.enc.cap → n ≤ s'.dec.cap →
    (∀ a < t.enc.cap, s'.inByte .dec a = t.outByte .enc a) →
    ∃ t', exec (instrOf .dec m') s' = .next t' ∧ t'.dec.status = ⟨0#3, true, false⟩ ∧ t'.dec.cap = n ∧
      ∀ a < n, t'.outByte .dec a = s.inByte .enc a

/-- R121, 90_conflicts.md C2: the round trip does not close for empty data: the empty input encodes to the empty text with
`Success`, whatever the capacity, and the empty text is `MalformedInputLength`. -/
def Obligations.EmptyDataDoesNotRoundTrip : Prop :=
  (∀ (m : Mode) (s : State), s.capacityFits .enc → s.resolves .enc m 0 →
    exec (instrOf .enc m) s =
      .next (s.setUnit .enc { s.enc with mode := m, cap := 0, status := ⟨0#3, true, false⟩ })) ∧
  ∀ (m : Mode) (s : State), s.capacityFits .dec → s.resolves .dec m 0 →
    exec (instrOf .dec m) s = .next (s.failed .dec m 2#3)

/-- R122 (c): encoding the bytes that a legal text decodes to gives that text back exactly when its discarded bits are
zero. -/
def Obligations.DecodeThenEncodeGivesCanonicalTextBack : Prop :=
  ∀ (m m' : Mode) (s t s' : State) (n p : Nat),
    exec (instrOf .dec m) s = .next t → t.dec.status.code = 0#3 → s.resolves .dec m n → PadsOf (s.inByte .dec) n p →
    s'.capacityFits .enc → s'.resolves .enc m' t.dec.cap → n ≤ s'.enc.cap →
    (∀ a < t.dec.cap, s'.inByte .enc a = t.outByte .dec a) →
    ∃ t', exec (instrOf .enc m') s' = .next t' ∧ t'.enc.status = ⟨0#3, true, false⟩ ∧ t'.enc.cap = n ∧
      ((∀ a < n, t'.outByte .enc a = s.inByte .dec a) ↔ DiscardedBitsZero (s.inByte .dec) n p)

/-- R44, R143, R29: when a command has no meaning (it is refused, with no completion step), and that it completes otherwise. `P_CAP`
refuses in either mode; with it met, raw mode demands `IN_LEN <= IN_BYTES` and string mode a zero byte in `IN`. That the refusal is
named for `P_CAP` when `P_LEN` or `P_TERM` fails too is the model's choice (log entry 14, DESIGN CHOICE, after the order of R90 and
R110). No command ever ends in a fault. -/
def Obligations.CommandsRefuseExactlyTheirPreconditions : Prop :=
  ∀ (u : UnitId) (s : State),
    (∀ m : Mode, s.outBytes u < (s.unit u).cap → exec (instrOf u m) s = .refused (.capacityBeyondBuffer u)) ∧
    ((s.unit u).cap ≤ s.outBytes u → s.inBytes u < (s.unit u).inLen →
      exec (instrOf u .raw) s = .refused (.lengthBeyondBuffer u)) ∧
    ((s.unit u).cap ≤ s.outBytes u → (∀ a < s.inBytes u, s.inByte u a ≠ 0x00#8) →
      exec (instrOf u .str) s = .refused (.noTerminator u)) ∧
    ((s.unit u).cap ≤ s.outBytes u → (s.unit u).inLen ≤ s.inBytes u → ∃ t, exec (instrOf u .raw) s = .next t) ∧
    ((s.unit u).cap ≤ s.outBytes u → (∃ a < s.inBytes u, s.inByte u a = 0x00#8) → ∃ t, exec (instrOf u .str) s = .next t)

/-- R152: one operation reports one status, the first failing check in the fixed order: encode, capacity; decode, length, then
characters and pads, then capacity. -/
def Obligations.OneStatusByTheFixedOrder : Prop :=
  (∀ (m : Mode) (s t : State) (n : Nat), exec (instrOf .enc m) s = .next t → s.resolves .enc m n →
    (s.enc.cap < (n + 2) / 3 * 4 → t.enc.status.code = 1#3) ∧
    (¬ s.enc.cap < (n + 2) / 3 * 4 → t.enc.status.code = 0#3)) ∧
  ∀ (m : Mode) (s t : State) (n p : Nat), exec (instrOf .dec m) s = .next t → s.resolves .dec m n →
    PadsOf (s.inByte .dec) n p →
    ((n = 0 ∨ n % 4 ≠ 0) → t.dec.status.code = 2#3) ∧
    (¬ (n = 0 ∨ n % 4 ≠ 0) → (∃ i < n - p, rev (s.inByte .dec i) = none) → t.dec.status.code = 3#3) ∧
    (¬ (n = 0 ∨ n % 4 ≠ 0) → ¬ (∃ i < n - p, rev (s.inByte .dec i) = none) → s.dec.cap < n / 4 * 3 - p →
      t.dec.status.code = 1#3) ∧
    (¬ (n = 0 ∨ n % 4 ≠ 0) → ¬ (∃ i < n - p, rev (s.inByte .dec i) = none) → ¬ s.dec.cap < n / 4 * 3 - p →
      t.dec.status.code = 0#3)

/-- R29: the completion step of a busy unit, in terms of its operation function: the writes in order, `CAP <- c`,
`CODE <- code(S)`, `BUSY <- 0`, `DONE <- 1`; nothing else changes; where the function refuses there is no completion. -/
def Obligations.CompletionAppliesTheOperation : Prop :=
  (∀ (s : State) (r : OpResult), s.nextTurn = .unit .enc → s.enc.status.busy = true →
    encodeOp (s.outBytes .enc) (s.inBytes .enc) s.enc.mode s.enc.inLen (s.inByte .enc) s.enc.cap = .ok r →
    step s = .next ({ s with schedule := s.schedule.tail }.setUnit .enc
      { s.enc with outBuf := s.enc.outBuf.writeAll r.writes, cap := r.cap, status := ⟨statusCode r.status, true, false⟩ })) ∧
  (∀ (s : State) (r : OpResult), s.nextTurn = .unit .dec → s.dec.status.busy = true →
    decodeOp (s.outBytes .dec) (s.inBytes .dec) s.dec.mode s.dec.inLen (s.inByte .dec) s.dec.cap = .ok r →
    step s = .next ({ s with schedule := s.schedule.tail }.setUnit .dec
      { s.dec with outBuf := s.dec.outBuf.writeAll r.writes, cap := r.cap, status := ⟨statusCode r.status, true, false⟩ })) ∧
  (∀ (s : State) (e : Refusal), s.nextTurn = .unit .enc → s.enc.status.busy = true →
    encodeOp (s.outBytes .enc) (s.inBytes .enc) s.enc.mode s.enc.inLen (s.inByte .enc) s.enc.cap = .error e →
    step s = .refused e) ∧
  ∀ (s : State) (e : Refusal), s.nextTurn = .unit .dec → s.dec.status.busy = true →
    decodeOp (s.outBytes .dec) (s.inBytes .dec) s.dec.mode s.dec.inLen (s.inByte .dec) s.dec.cap = .error e →
    step s = .refused e

/-- R49: the write footprint. An operation that succeeds with result `c` writes each of `out[0 .. c-1]` exactly once and no
other byte, `c` at most the capacity offered; one that ends in any other status writes no byte. -/
def Obligations.WriteFootprint : Prop :=
  (∀ (outBytes inBytes : Nat) (m : Mode) (len : Nat) (input : Nat → Byte) (cap : Nat) (r : OpResult),
    (encodeOp outBytes inBytes m len input cap = .ok r ∨ decodeOp outBytes inBytes m len input cap = .ok r) →
    (r.status = .success → r.writes.map Prod.fst = List.range r.cap ∧ r.cap ≤ cap ∧ cap ≤ outBytes) ∧
    (r.status ≠ .success → r.writes = [])) ∧
  ∀ (i : Instr) (s t : State), exec i s = .next t →
    ∀ a, (t.unit i.unit).status.code ≠ 0#3 ∨ (t.unit i.unit).cap ≤ a → t.outByte i.unit a = s.outByte i.unit a

/-- R155, R156, R157: a command that ends with a status other than `Success` changes only `MODE` and `STATUS` of its unit: no
byte of `OUT` is written and `CAP` keeps its value. -/
def Obligations.FailedCommandChangesOnlyStatus : Prop :=
  ∀ (i : Instr) (s t : State), exec i s = .next t → (t.unit i.unit).status.code ≠ 0#3 →
    t = s.failed i.unit i.mode (t.unit i.unit).status.code

/-- R158: a failure is not sticky and a retry with the same operands gives the same: after a failed command the same command
again changes nothing. -/
def Obligations.RetryGivesTheSameStatus : Prop :=
  ∀ (i : Instr) (s t : State), exec i s = .next t → (t.unit i.unit).status.code ≠ 0#3 → exec i t = .next t

/-- R20, R26, R33, R45: a command touches only its own unit, and of it neither `IN_LEN` nor `IN`; it leaves the unit idle with a
valid result in the mode of the command. -/
def Obligations.CommandsTouchOnlyTheirUnit : Prop :=
  ∀ (i : Instr) (s t : State), exec i s = .next t →
    CommandFrame i.unit s t ∧ (t.unit i.unit).mode = i.mode ∧ (t.unit i.unit).status.busy = false ∧
    (t.unit i.unit).status.done = true ∧
    (∀ (b : Buf) (a : Nat), t.byteAt i.unit.other b a = s.byteAt i.unit.other b a) ∧
    ∀ a, t.inByte i.unit a = s.inByte i.unit a

/-- R33, R48: the read footprint. Two states that agree on the parameters, the resolved length `n`, the first `n` input bytes, the
capacity and the prior `OUT` of the command's unit give the same status, `CAP` and `OUT`; `IN_LEN` in string mode, the bytes
from `n` on, the other unit and everything else may differ. -/
def Obligations.ResultDependsOnlyOnTheFootprint : Prop :=
  ∀ (i : Instr) (s s' : State) (n : Nat), s'.params = s.params → s.capacityFits i.unit →
    (s'.unit i.unit).cap = (s.unit i.unit).cap → s.resolves i.unit i.mode n → s'.resolves i.unit i.mode n →
    (∀ a < n, s'.inByte i.unit a = s.inByte i.unit a) → (∀ a, s'.outByte i.unit a = s.outByte i.unit a) →
    ∃ t t', exec i s = .next t ∧ exec i s' = .next t' ∧ (t'.unit i.unit).status = (t.unit i.unit).status ∧
      (t'.unit i.unit).cap = (t.unit i.unit).cap ∧ ∀ a, t'.outByte i.unit a = t.outByte i.unit a

/-- R144: the two modes agree where both apply. If `in[0 .. k-1]` holds no zero byte and `in[k]` is zero, the string-mode command
and the raw-mode command with `IN_LEN = k` give the same status, `CAP` and `OUT`, or are both refused for the capacity. -/
def Obligations.ModesAgreeWhereBothApply : Prop :=
  ∀ (u : UnitId) (s : State) (k : Nat), k < s.inBytes u → s.inByte u k = 0x00#8 → (∀ a < k, s.inByte u a ≠ 0x00#8) →
    (s.capacityFits u → ∃ t t', exec (instrOf u .str) s = .next t ∧
      exec (instrOf u .raw) (s.setUnit u { s.unit u with inLen := k }) = .next t' ∧
      (t'.unit u).status = (t.unit u).status ∧ (t'.unit u).cap = (t.unit u).cap ∧
      ∀ a, t'.outByte u a = t.outByte u a) ∧
    (¬ s.capacityFits u → exec (instrOf u .str) s = .refused (.capacityBeyondBuffer u) ∧
      exec (instrOf u .raw) (s.setUnit u { s.unit u with inLen := k }) = .refused (.capacityBeyondBuffer u))

/-- R36: one step for two. The host's write of `U.CMD` to an idle unit, followed by that unit's completion, is the command carried
out in one piece. The order of turns as a schedule is the model's form (log entry 6). -/
def Obligations.StartThenCompletionIsTheCommand : Prop :=
  ∀ (s : State) (u : UnitId) (v : Nat) (program : List HostAction) (schedule : List Turn),
    (s.unit u).status.busy = false →
    ∃ w, step { s with program := .wr (registerNumber u 0) v :: program, schedule := .host :: .unit u :: schedule }
        = .next w ∧
      step w = exec (instrOf u (if v % 2 = 0 then .raw else .str)) { s with program := program, schedule := schedule }

/-- R30, R52 (b): from a start to its completion nothing the operation reads changes: a step that is neither that unit's turn nor
the reset event leaves a busy unit, the parameters and the launch values as they are. -/
def Obligations.OperandsAreHeldWhileBusy : Prop :=
  ∀ (s t : State) (u : UnitId), step s = .next t → (s.unit u).status.busy = true → s.nextTurn ≠ .unit u →
    s.nextTurn ≠ .reset → t.unit u = s.unit u ∧ t.params = s.params ∧ t.launch = s.launch

/-- R25, R28: only a host write of `U.CMD` makes an idle unit busy. -/
def Obligations.OnlyACommandWriteStartsAUnit : Prop :=
  ∀ (s t : State) (u : UnitId), step s = .next t → (s.unit u).status.busy = false → (t.unit u).status.busy = true →
    s.nextTurn = .host ∧ ∃ v rest, s.program = .wr (registerNumber u 0) v :: rest

/-- R25, R29: `DONE` goes from 0 to 1 only by the completion step of that unit, which was busy and is then idle. -/
def Obligations.OnlyACompletionSetsDone : Prop :=
  ∀ (s t : State) (u : UnitId), step s = .next t → (s.unit u).status.done = false → (t.unit u).status.done = true →
    s.nextTurn = .unit u ∧ (s.unit u).status.busy = true ∧ (t.unit u).status.busy = false

/-- R52 (d), R161: operations of `ENC` and `DEC` commute: giving the two units their turns in either order leads to the same
state. The order of turns as a schedule is the model's form (log entry 6). -/
def Obligations.TheTwoUnitsCommute : Prop :=
  ∀ (s t : State) (rest : List Turn),
    (∃ w, step { s with schedule := .unit .enc :: .unit .dec :: rest } = .next w ∧ step w = .next t) ↔
    ∃ w, step { s with schedule := .unit .dec :: .unit .enc :: rest } = .next w ∧ step w = .next t

/-! ### Invariants -/

/-- The state after reset meets the invariant. -/
def Obligations.ResetStateIsWellFormed : Prop := State.reset.wf

/-- Every step keeps the invariant: legal parameters, registers within `LEN_W` bits, status codes 0 to 3, `BUSY` and `DONE` never
both, buffers canonical and within their sizes. -/
def Obligations.EveryStepKeepsTheStateWellFormed : Prop :=
  ∀ s t : State, s.wf → step s = .next t → t.wf

/-- R5: no step changes the implementation parameters; only the reset event changes which launch the buffers' free values
come from. -/
def Obligations.ParametersAreFixed : Prop :=
  ∀ s t : State, step s = .next t → t.params = s.params ∧ (s.nextTurn ≠ .reset → t.launch = s.launch)
end

