-- ==== Sys2Proof/Laws/State.lean ====
section
/-! SUPPORT. Laws/State.lean: what each update of a unit and of the state does to each field; all true by unfolding, so that
no later proof unfolds a record update. -/

namespace Sys2Proof.Machine

variable (x : UnitState) (s : State) (u : UnitId) (m : Mode) (r : OpResult) (b : Buf) (mem : Memory)

@[simp] theorem start_mode : (x.start m).mode = m := rfl
@[simp] theorem start_inLen : (x.start m).inLen = x.inLen := rfl
@[simp] theorem start_cap : (x.start m).cap = x.cap := rfl
@[simp] theorem start_status : (x.start m).status = .started := rfl
@[simp] theorem start_inBuf : (x.start m).inBuf = x.inBuf := rfl
@[simp] theorem start_outBuf : (x.start m).outBuf = x.outBuf := rfl

@[simp] theorem complete_mode : (x.complete r).mode = x.mode := rfl
@[simp] theorem complete_inLen : (x.complete r).inLen = x.inLen := rfl
@[simp] theorem complete_cap : (x.complete r).cap = r.cap := rfl
@[simp] theorem complete_status : (x.complete r).status = .completed r.status := rfl
@[simp] theorem complete_inBuf : (x.complete r).inBuf = x.inBuf := rfl
@[simp] theorem complete_outBuf : (x.complete r).outBuf = x.outBuf.writeAll r.writes := rfl

@[simp] theorem started_code : Status.started.code = 0 := rfl
@[simp] theorem started_done : Status.started.done = false := rfl
@[simp] theorem started_busy : Status.started.busy = true := rfl
@[simp] theorem completed_code (k : StatusKind) : (Status.completed k).code = statusCode k := rfl
@[simp] theorem completed_done (k : StatusKind) : (Status.completed k).done = true := rfl
@[simp] theorem completed_busy (k : StatusKind) : (Status.completed k).busy = false := rfl

@[simp] theorem setBuf_buf : (x.setBuf b mem).buf b = mem := by cases b <;> rfl
@[simp] theorem setBuf_mode : (x.setBuf b mem).mode = x.mode := by cases b <;> rfl
@[simp] theorem setBuf_inLen : (x.setBuf b mem).inLen = x.inLen := by cases b <;> rfl
@[simp] theorem setBuf_cap : (x.setBuf b mem).cap = x.cap := by cases b <;> rfl
@[simp] theorem setBuf_status : (x.setBuf b mem).status = x.status := by cases b <;> rfl

@[simp] theorem unit_enc : s.unit .enc = s.enc := rfl
@[simp] theorem unit_dec : s.unit .dec = s.dec := rfl
@[simp] theorem setUnit_enc_enc : (s.setUnit .enc x).enc = x := rfl
@[simp] theorem setUnit_enc_dec : (s.setUnit .enc x).dec = s.dec := rfl
@[simp] theorem setUnit_dec_enc : (s.setUnit .dec x).enc = s.enc := rfl
@[simp] theorem setUnit_dec_dec : (s.setUnit .dec x).dec = x := rfl
@[simp] theorem popTurn_enc : s.popTurn.enc = s.enc := rfl
@[simp] theorem popTurn_dec : s.popTurn.dec = s.dec := rfl
@[simp] theorem other_other : u.other.other = u := by cases u <;> rfl
@[simp] theorem setUnit_unit : (s.setUnit u x).unit u = x := by cases u <;> rfl
@[simp] theorem setUnit_unit_other : (s.setUnit u x).unit u.other = s.unit u.other := by cases u <;> rfl
@[simp] theorem setUnit_self : s.setUnit u (s.unit u) = s := by cases u <;> rfl
@[simp] theorem setUnit_setUnit (y : UnitState) : (s.setUnit u x).setUnit u y = s.setUnit u y := by cases u <;> rfl
@[simp] theorem setUnit_params : (s.setUnit u x).params = s.params := by cases u <;> rfl
@[simp] theorem setUnit_launch : (s.setUnit u x).launch = s.launch := by cases u <;> rfl
@[simp] theorem setUnit_busyReads : (s.setUnit u x).busyReads = s.busyReads := by cases u <;> rfl
@[simp] theorem setUnit_program : (s.setUnit u x).program = s.program := by cases u <;> rfl
@[simp] theorem setUnit_schedule : (s.setUnit u x).schedule = s.schedule := by cases u <;> rfl
@[simp] theorem setUnit_readings : (s.setUnit u x).readings = s.readings := by cases u <;> rfl
@[simp] theorem setUnit_inBytes (v : UnitId) : (s.setUnit u x).inBytes v = s.inBytes v := by cases u <;> rfl
@[simp] theorem setUnit_outBytes (v : UnitId) : (s.setUnit u x).outBytes v = s.outBytes v := by cases u <;> rfl
@[simp] theorem setUnit_bufBytes (v : UnitId) : (s.setUnit u x).bufBytes v b = s.bufBytes v b := by
  cases u <;> cases b <;> rfl

/-- Writes to two different units commute. -/
theorem setUnit_comm (y : UnitState) : (s.setUnit u x).setUnit u.other y = (s.setUnit u.other y).setUnit u x := by
  cases u <;> rfl

theorem unit_of_ne {v : UnitId} (h : v ≠ u) : (s.setUnit u x).unit v = s.unit v := by
  cases u <;> cases v <;> first | rfl | exact absurd rfl h

@[simp] theorem popTurn_unit : s.popTurn.unit u = s.unit u := by cases u <;> rfl
@[simp] theorem popTurn_params : s.popTurn.params = s.params := rfl
@[simp] theorem popTurn_launch : s.popTurn.launch = s.launch := rfl
@[simp] theorem popTurn_busyReads : s.popTurn.busyReads = s.busyReads := rfl
@[simp] theorem popTurn_program : s.popTurn.program = s.program := rfl
@[simp] theorem popTurn_readings : s.popTurn.readings = s.readings := rfl
@[simp] theorem popTurn_schedule : s.popTurn.schedule = s.schedule.tail := rfl
@[simp] theorem popTurn_byteAt : s.popTurn.byteAt u b = s.byteAt u b := by cases u <;> rfl
@[simp] theorem popTurn_inByte : s.popTurn.inByte u = s.inByte u := by cases u <;> rfl
@[simp] theorem popTurn_outByte : s.popTurn.outByte u = s.outByte u := by cases u <;> rfl
@[simp] theorem popTurn_inBytes : s.popTurn.inBytes u = s.inBytes u := rfl
@[simp] theorem popTurn_outBytes : s.popTurn.outBytes u = s.outBytes u := rfl
@[simp] theorem popTurn_fetchWord : s.popTurn.fetchWord u = s.fetchWord u := by cases u <;> rfl

@[simp] theorem note_unit (y : Reading) : (s.note y).unit u = s.unit u := by cases u <;> rfl
@[simp] theorem note_params (y : Reading) : (s.note y).params = s.params := rfl
@[simp] theorem note_launch (y : Reading) : (s.note y).launch = s.launch := rfl
@[simp] theorem note_busyReads (y : Reading) : (s.note y).busyReads = s.busyReads := rfl
@[simp] theorem note_program (y : Reading) : (s.note y).program = s.program := rfl
@[simp] theorem note_schedule (y : Reading) : (s.note y).schedule = s.schedule := rfl
@[simp] theorem note_readings (y : Reading) : (s.note y).readings = y :: s.readings := rfl

@[simp] theorem resetEvent_unit : s.resetEvent.unit u = .reset := by cases u <;> rfl
@[simp] theorem resetEvent_params : s.resetEvent.params = s.params := rfl
@[simp] theorem resetEvent_launch : s.resetEvent.launch = s.launch + 1 := rfl
@[simp] theorem resetEvent_program : s.resetEvent.program = s.program := rfl
@[simp] theorem resetEvent_schedule : s.resetEvent.schedule = s.schedule := rfl
@[simp] theorem resetEvent_readings : s.resetEvent.readings = s.readings := rfl
@[simp] theorem resetEvent_busyReads : s.resetEvent.busyReads = s.busyReads := rfl

/-- Two states are equal when their units and their other fields are. -/
theorem State.eq_of_fields {t : State} (hp : s.params = t.params) (hu : ∀ v, s.unit v = t.unit v)
    (hl : s.launch = t.launch) (hb : s.busyReads = t.busyReads) (hg : s.program = t.program)
    (hs : s.schedule = t.schedule) (hr : s.readings = t.readings) : s = t := by
  cases s; cases t
  have he := hu .enc
  have hd := hu .dec
  simp_all

end Sys2Proof.Machine
end

