-- ==== Sys2Proof/Laws/Memory.lean ====
section
/-! SUPPORT. Laws/Memory.lean: read after write, and that every memory operation keeps the canonical form. -/

namespace Sys2Proof.Machine

theorem Memory.read_write (m : Memory) (a b : Nat) (v : Byte) :
    (m.write a v).read b = if b = a then some v else m.read b := by
  induction m with
  | nil => simp [Memory.write, Memory.read, eq_comm]
  | cons c m ih =>
    unfold Memory.write
    split
    · simp [Memory.read, eq_comm]
    · split
      · rename_i h; subst h
        by_cases hb : b = c.1 <;> simp [Memory.read, hb, eq_comm]
      · rename_i h1 h2
        by_cases hb : c.1 = b
        · subst hb; simp [Memory.read, Ne.symm h2]
        · simp [Memory.read, hb, ih]

@[simp] theorem Memory.read_write_same (m : Memory) (a : Nat) (v : Byte) : (m.write a v).read a = some v := by
  simp [Memory.read_write]

theorem Memory.read_write_other (m : Memory) {a b : Nat} (v : Byte) (h : b ≠ a) : (m.write a v).read b = m.read b := by
  simp [Memory.read_write, h]

/-- What a write leaves listed: its own cell, or a cell that was listed. -/
theorem Memory.mem_write {m : Memory} {a : Nat} {v : Byte} {c : Host.Cell} (h : c ∈ m.write a v) :
    c = (a, v) ∨ c ∈ m := by
  induction m with
  | nil => simpa [Memory.write] using h
  | cons d m ih =>
    unfold Memory.write at h
    split at h
    · simpa using h
    · split at h
      · rcases List.mem_cons.1 h with h | h
        · exact .inl h
        · exact .inr (List.mem_cons_of_mem _ h)
      · rcases List.mem_cons.1 h with h | h
        · exact .inr (h ▸ List.mem_cons_self)
        · exact (ih h).imp id (List.mem_cons_of_mem _)

theorem Memory.wf_write {m : Memory} (h : m.wf) (a : Nat) (v : Byte) : (m.write a v).wf := by
  refine ⟨?_, fun c _ => by simp [Memory.unlisted]⟩
  have hp := h.1
  clear h
  induction m with
  | nil => simp [Memory.write]
  | cons d m ih =>
    rw [List.pairwise_cons] at hp
    unfold Memory.write
    split
    · rename_i had
      refine List.pairwise_cons.2 ⟨fun c hc => ?_, List.pairwise_cons.2 hp⟩
      rcases List.mem_cons.1 hc with rfl | hc
      · exact had
      · exact lt_trans had (hp.1 c hc)
    · split
      · rename_i hda
        exact List.pairwise_cons.2 ⟨fun c hc => hda ▸ hp.1 c hc, hp.2⟩
      · rename_i h1 h2
        refine List.pairwise_cons.2 ⟨fun c hc => ?_, ih hp.2⟩
        rcases Memory.mem_write hc with rfl | hc
        · exact lt_of_le_of_ne (not_lt.1 h1) (Ne.symm h2)
        · exact hp.1 c hc

theorem Memory.wf_nil : Memory.wf [] := ⟨List.Pairwise.nil, by simp⟩

@[simp] theorem Memory.writeAll_nil (m : Memory) : m.writeAll [] = m := rfl
@[simp] theorem Memory.writeAll_cons (m : Memory) (c : Host.Cell) (ws : List Host.Cell) :
    m.writeAll (c :: ws) = (m.write c.1 c.2).writeAll ws := rfl

theorem Memory.wf_writeAll {m : Memory} (h : m.wf) (ws : List Host.Cell) : (m.writeAll ws).wf := by
  induction ws generalizing m with
  | nil => exact h
  | cons c ws ih => exact ih (Memory.wf_write h c.1 c.2)

/-- A list of writes leaves listed only cells of its own and cells that were listed. -/
theorem Memory.mem_writeAll {m : Memory} {ws : List Host.Cell} {c : Host.Cell} (h : c ∈ m.writeAll ws) :
    c ∈ ws ∨ c ∈ m := by
  induction ws generalizing m with
  | nil => exact .inr h
  | cons d ws ih =>
    rcases ih h with h | h
    · exact .inl (List.mem_cons_of_mem _ h)
    · rcases Memory.mem_write h with rfl | h
      · exact .inl List.mem_cons_self
      · exact .inr h

theorem Memory.read_writeAll_of_not_mem (m : Memory) (ws : List Host.Cell) {a : Nat} (h : a ∉ ws.map Prod.fst) :
    (m.writeAll ws).read a = m.read a := by
  induction ws generalizing m with
  | nil => rfl
  | cons c ws ih =>
    simp only [List.map_cons, List.mem_cons, not_or] at h
    rw [Memory.writeAll_cons, ih _ h.2, Memory.read_write_other _ _ h.1]

/-- Where the indices of the writes are pairwise different, each written index reads as its value. -/
theorem Memory.read_writeAll_of_mem (m : Memory) {ws : List Host.Cell} (hn : (ws.map Prod.fst).Nodup) {a : Nat} {v : Byte}
    (h : (a, v) ∈ ws) : (m.writeAll ws).read a = some v := by
  induction ws generalizing m with
  | nil => simp at h
  | cons c ws ih =>
    rw [List.map_cons, List.nodup_cons] at hn
    rcases List.mem_cons.1 h with rfl | h
    · rw [Memory.writeAll_cons, Memory.read_writeAll_of_not_mem _ _ hn.1, Memory.read_write_same]
    · exact ih _ hn.2 h

/-- Reading a buffer byte depends only on the unit's buffer and the launch number. -/
theorem byteAt_congr {s t : State} {u : UnitId} {b : Buf} (hb : (s.unit u).buf b = (t.unit u).buf b)
    (hl : s.launch = t.launch) (a : Nat) : s.byteAt u b a = t.byteAt u b a := by
  simp [State.byteAt, hb, hl]

end Sys2Proof.Machine
end

