-- ==== Sys2Proof/Laws/Operands.lean ====
section
/-! SUPPORT. Laws/Operands.lean: what the scan of string mode and `ResolveLen` answer. -/

namespace Sys2Proof.Machine

/-- The scan answers `n` exactly when `n` is the least index from `a` on with a zero byte. -/
theorem firstZero_eq_some {input : Nat → Byte} {k a n : Nat} :
    firstZero input k a = some n ↔ a ≤ n ∧ n < a + k ∧ input n = 0#8 ∧ ∀ i, a ≤ i → i < n → input i ≠ 0#8 := by
  induction k generalizing a with
  | zero => simp [firstZero]; omega
  | succ k ih =>
    unfold firstZero
    split
    · rename_i h
      constructor
      · rintro ⟨⟩
        exact ⟨le_refl _, by omega, h, fun i h1 h2 => by omega⟩
      · rintro ⟨h1, _, _, h4⟩
        rcases Nat.eq_or_lt_of_le h1 with rfl | hlt
        · rfl
        · exact absurd h (h4 a (le_refl _) hlt)
    · rename_i h
      rw [ih]
      constructor
      · rintro ⟨h1, h2, h3, h4⟩
        refine ⟨by omega, by omega, h3, fun i hi hin => ?_⟩
        rcases Nat.eq_or_lt_of_le hi with rfl | hlt
        · exact h
        · exact h4 i hlt hin
      · rintro ⟨h1, h2, h3, h4⟩
        refine ⟨?_, by omega, h3, fun i hi hin => h4 i (by omega) hin⟩
        rcases Nat.eq_or_lt_of_le h1 with rfl | hlt
        · exact absurd h3 h
        · exact hlt

theorem firstZero_eq_none {input : Nat → Byte} {k a : Nat} :
    firstZero input k a = none ↔ ∀ i, a ≤ i → i < a + k → input i ≠ 0#8 := by
  induction k generalizing a with
  | zero => simp [firstZero]; omega
  | succ k ih =>
    unfold firstZero
    split
    · rename_i h
      simp only [reduceCtorEq, false_iff, not_forall]
      exact ⟨a, le_refl _, by omega, fun hn => hn h⟩
    · rename_i h
      rw [ih]
      constructor
      · intro hh i h1 h2
        rcases Nat.eq_or_lt_of_le h1 with rfl | hlt
        · exact h
        · exact hh i hlt (by omega)
      · exact fun hh i h1 h2 => hh i (by omega) (by omega)

/-- `ResolveLen` on a unit's own operands answers `n` exactly when `n` is the length the spec gives (R140, R143). -/
theorem resolveLen_eq_ok {s : State} {u : UnitId} {m : Mode} {n : Nat} :
    resolveLen u (s.inBytes u) m (s.unit u).inLen (s.inByte u) = .ok n ↔ s.resolves u m n := by
  cases m with
  | raw =>
    simp only [resolveLen, State.resolves]
    split
    · simp; constructor
      · rintro rfl; exact ⟨rfl, ‹_›⟩
      · exact fun h => h.1.symm
    · simp; rintro rfl; omega
  | str =>
    simp only [resolveLen, State.resolves]
    cases h : firstZero (s.inByte u) (s.inBytes u) 0 with
    | none =>
      rw [firstZero_eq_none] at h
      simp only [reduceCtorEq, false_iff]
      exact fun hn => h n (Nat.zero_le _) (by omega) hn.2.1
    | some k =>
      rw [firstZero_eq_some] at h
      simp only [Except.ok.injEq]
      constructor
      · rintro rfl
        exact ⟨by omega, h.2.2.1, fun i hi => h.2.2.2 i (Nat.zero_le _) hi⟩
      · rintro ⟨h1, h2, h3⟩
        rcases Nat.lt_trichotomy k n with hlt | rfl | hgt
        · exact absurd h.2.2.1 (h3 k hlt)
        · rfl
        · exact absurd h2 (h.2.2.2 n (Nat.zero_le _) hgt)

/-- `ResolveLen` refuses exactly where the mode's precondition fails (R143). -/
theorem resolveLen_eq_error {s : State} {u : UnitId} {m : Mode} {e : Refusal} :
    resolveLen u (s.inBytes u) m (s.unit u).inLen (s.inByte u) = .error e ↔
      (m = .raw ∧ s.inBytes u < (s.unit u).inLen ∧ e = .lengthBeyondBuffer u) ∨
      (m = .str ∧ ¬ s.hasTerminator u ∧ e = .noTerminator u) := by
  cases m with
  | raw =>
    simp only [resolveLen]
    split <;> simp [eq_comm] <;> intros <;> omega
  | str =>
    simp only [resolveLen]
    cases h : firstZero (s.inByte u) (s.inBytes u) 0 with
    | none =>
      rw [firstZero_eq_none] at h
      have : ¬ s.hasTerminator u := fun ⟨a, ha, hz⟩ => h a (Nat.zero_le _) (by omega) hz
      simp [this, eq_comm]
    | some k =>
      rw [firstZero_eq_some] at h
      have : s.hasTerminator u := ⟨k, by omega, h.2.2.1⟩
      simp [this]

/-- The length of the logical input is unique. -/
theorem State.resolves_unique {s : State} {u : UnitId} {m : Mode} {n k : Nat} (hn : s.resolves u m n)
    (hk : s.resolves u m k) : n = k := by
  have h := resolveLen_eq_ok.2 hn
  rw [resolveLen_eq_ok.2 hk] at h
  exact (Except.ok.inj h).symm

/-- The length of the logical input lies within the buffer (R140). -/
theorem State.resolves_le {s : State} {u : UnitId} {m : Mode} {n : Nat} (h : s.resolves u m n) : n ≤ s.inBytes u := by
  cases m with
  | raw => exact h.2
  | str => exact Nat.le_of_lt h.1

end Sys2Proof.Machine
end

