-- ==== Sys2Proof/Laws/Decoder.lean ====
section
/-! SUPPORT. Laws/Decoder.lean: what `Decode` answers, the indices it writes, and the byte at each of them. -/

namespace Sys2Proof.Machine

theorem padCount_le (input : Nat → Byte) (n : Nat) : padCount input n ≤ 2 := by
  unfold padCount; split <;> [omega; split <;> omega]

/-- The pad count is the one the spec defines (R114). -/
theorem padCount_iff {input : Nat → Byte} {n p : Nat} : PadsOf input n p ↔ p = padCount input n := by
  unfold PadsOf padCount pad
  by_cases h1 : input (n - 1) = 0x3D#8 <;> by_cases h2 : input (n - 2) = 0x3D#8 <;> simp [h1, h2]

theorem allSymbols_iff {input : Nat → Byte} {k : Nat} :
    allSymbols input k = true ↔ ∀ i < k, ∃ v, rev (input i) = some v := by
  simp [allSymbols, Option.isSome_iff_exists]

/-- The input that the checks 1 and 2 let through is the legal text of R76. -/
theorem legalText_iff {input : Nat → Byte} {n p : Nat} :
    LegalText input n p ↔ ¬ (n = 0 ∨ n % 4 ≠ 0) ∧ p = padCount input n ∧ allSymbols input (n - padCount input n) = true := by
  unfold LegalText
  rw [padCount_iff]
  constructor
  · rintro ⟨h1, h2, rfl, h4⟩
    exact ⟨by omega, rfl, allSymbols_iff.2 h4⟩
  · rintro ⟨h1, rfl, h3⟩
    exact ⟨by omega, by omega, rfl, allSymbols_iff.1 h3⟩

theorem decodeGroup_indices (input : Nat → Byte) {req g : Nat} (h : 3 * g < req) :
    (decodeGroup input req g).map Prod.fst = (List.range (min 3 (req - 3 * g))).map (3 * g + ·) := by
  unfold decodeGroup
  by_cases h1 : 3 * g + 1 < req <;> by_cases h2 : 3 * g + 2 < req
  · rw [show min 3 (req - 3 * g) = 3 by omega]; simp [h1, h2, List.range_succ]
  · rw [show min 3 (req - 3 * g) = 2 by omega]; simp [h1, h2, List.range_succ]
  · omega
  · rw [show min 3 (req - 3 * g) = 1 by omega]; simp [h1, h2, List.range_succ]

theorem decodeGroups_indices (input : Nat → Byte) (req q : Nat) (h : q = 0 ∨ 3 * (q - 1) < req) :
    ((List.range q).flatMap (decodeGroup input req)).map Prod.fst = List.range (min (3 * q) req) := by
  induction q with
  | zero => simp
  | succ q ih =>
    have hq : 3 * q < req := by simpa using h
    rw [List.range_succ, List.flatMap_append, List.map_append, ih (by omega)]
    simp only [List.flatMap_cons, List.flatMap_nil, List.append_nil, decodeGroup_indices input hq]
    rw [show min (3 * (q + 1)) req = 3 * q + min 3 (req - 3 * q) by omega, List.range_add,
      show min (3 * q) req = 3 * q by omega]

/-- A decode of a positive multiple of four writes each of `0 .. req-1` once, in ascending order (R49). -/
theorem decodeWrites_indices (input : Nat → Byte) {n p : Nat} (hn : ¬ (n = 0 ∨ n % 4 ≠ 0)) (hp : p ≤ 2) :
    (decodeWrites input n (decodeSize n p)).map Prod.fst = List.range (decodeSize n p) := by
  unfold decodeWrites
  rw [decodeGroups_indices _ _ _ (by unfold decodeSize; omega)]
  unfold decodeSize
  congr 1; omega

theorem mem_decodeWrites {input : Nat → Byte} {n req g : Nat} (hg : g < n / 4) {c : Host.Cell}
    (hc : c ∈ decodeGroup input req g) : c ∈ decodeWrites input n req :=
  List.mem_flatMap.2 ⟨g, List.mem_range.2 hg, hc⟩

/-- After the writes of a decode the output is what the text stands for (R73, R74). -/
theorem decodeWrites_spec {input output : Nat → Byte} {n req : Nat}
    (h : ∀ a v, (a, v) ∈ decodeWrites input n req → output a = v) : DecodesTo input output n req := by
  intro g hg
  refine ⟨fun s0 s1 h0 h1 => ?_, fun hlt s1 s2 h1 h2 => ?_, fun hlt s2 s3 h2 h3 => ?_⟩ <;>
    refine h _ _ (mem_decodeWrites hg ?_)
  · simp [decodeGroup, symbolValue, groupByte0, h0, h1]
  · simp [decodeGroup, symbolValue, groupByte1, h1, h2, hlt]
  · simp [decodeGroup, symbolValue, groupByte2, h2, h3, hlt]

variable {outBytes inBytes : Nat} {m : Mode} {len : Nat} {input : Nat → Byte} {cap : Nat}

/-- `refuse(P_CAP)` comes before everything else (R44, R110). -/
theorem decodeOp_capacityBeyondBuffer (h : outBytes < cap) :
    decodeOp outBytes inBytes m len input cap = .error (.capacityBeyondBuffer .dec) := by
  simp [decodeOp, h]

/-- Where `ResolveLen` refuses, `Decode` does (R110, R143). -/
theorem decodeOp_of_error {e : Refusal} (h : cap ≤ outBytes) (hr : resolveLen .dec inBytes m len input = .error e) :
    decodeOp outBytes inBytes m len input cap = .error e := by
  simp [decodeOp, Nat.not_lt.2 h, hr]

/-- Check 1 fails (R113). -/
theorem decodeOp_malformed {n : Nat} (h : cap ≤ outBytes) (hr : resolveLen .dec inBytes m len input = .ok n)
    (hn : n = 0 ∨ n % 4 ≠ 0) :
    decodeOp outBytes inBytes m len input cap = .ok (raise .malformedInputLength cap) := by
  simp only [decodeOp, Nat.not_lt.2 h, hr, if_false, if_pos hn]

/-- Check 1 passes and check 2 fails (R115). -/
theorem decodeOp_invalid {n p i : Nat} (h : cap ≤ outBytes) (hr : resolveLen .dec inBytes m len input = .ok n)
    (hn : ¬ (n = 0 ∨ n % 4 ≠ 0)) (hp : PadsOf input n p) (hi : i < n - p) (hv : rev (input i) = none) :
    decodeOp outBytes inBytes m len input cap = .ok (raise .invalidCharacter cap) := by
  have hs : allSymbols input (n - padCount input n) = false := by
    rw [← Bool.not_eq_true, allSymbols_iff, ← padCount_iff.1 hp]
    intro hall
    obtain ⟨v, hv'⟩ := hall i hi
    simp [hv] at hv'
  simp only [decodeOp, Nat.not_lt.2 h, hr, if_false, if_neg hn, hs, if_true]

/-- Checks 1 and 2 pass and the capacity is below the required size (R117). -/
theorem decodeOp_insufficient {n p : Nat} (h : cap ≤ outBytes) (hr : resolveLen .dec inBytes m len input = .ok n)
    (ht : LegalText input n p) (hc : cap < decodeSize n p) :
    decodeOp outBytes inBytes m len input cap = .ok (raise .insufficientBufferCapacity cap) := by
  obtain ⟨hn, rfl, hs⟩ := legalText_iff.1 ht
  simp only [decodeOp, Nat.not_lt.2 h, hr, if_false, if_neg hn, hs, Bool.true_eq_false, if_pos hc]

/-- Success (R120). -/
theorem decodeOp_success {n p : Nat} (h : cap ≤ outBytes) (hr : resolveLen .dec inBytes m len input = .ok n)
    (ht : LegalText input n p) (hc : decodeSize n p ≤ cap) :
    decodeOp outBytes inBytes m len input cap =
      .ok ⟨.success, decodeSize n p, decodeWrites input n (decodeSize n p)⟩ := by
  obtain ⟨hn, rfl, hs⟩ := legalText_iff.1 ht
  simp only [decodeOp, Nat.not_lt.2 h, hr, if_false, if_neg hn, hs, Bool.true_eq_false, if_neg (Nat.not_lt.2 hc)]

/-- Every logical input falls under one of three heads (R152): the length is malformed, a byte before the pads is no symbol,
or the text is legal. -/
theorem decode_input_cases (input : Nat → Byte) (n : Nat) :
    (n = 0 ∨ n % 4 ≠ 0) ∨
    (¬ (n = 0 ∨ n % 4 ≠ 0) ∧ ∃ p i, PadsOf input n p ∧ i < n - p ∧ rev (input i) = none) ∨
    ∃ p, LegalText input n p := by
  by_cases hn : n = 0 ∨ n % 4 ≠ 0
  · exact .inl hn
  refine .inr ?_
  by_cases hs : allSymbols input (n - padCount input n) = true
  · exact .inr ⟨padCount input n, legalText_iff.2 ⟨hn, rfl, hs⟩⟩
  · refine .inl ⟨hn, padCount input n, ?_⟩
    rw [allSymbols_iff] at hs
    push Not at hs
    obtain ⟨i, hi, hv⟩ := hs
    exact ⟨i, padCount_iff.2 rfl, hi, Option.eq_none_iff_forall_ne_some.2 hv⟩

/-- Everything `Decode` can answer when it answers a result. -/
theorem decodeOp_cases {r : OpResult} (h : decodeOp outBytes inBytes m len input cap = .ok r) :
    cap ≤ outBytes ∧ ∃ n, resolveLen .dec inBytes m len input = .ok n ∧
      (((n = 0 ∨ n % 4 ≠ 0) ∧ r = raise .malformedInputLength cap) ∨
        (¬ (n = 0 ∨ n % 4 ≠ 0) ∧ (∃ p i, PadsOf input n p ∧ i < n - p ∧ rev (input i) = none) ∧
          r = raise .invalidCharacter cap) ∨
        ∃ p, LegalText input n p ∧
          ((cap < decodeSize n p ∧ r = raise .insufficientBufferCapacity cap) ∨
            (decodeSize n p ≤ cap ∧ r = ⟨.success, decodeSize n p, decodeWrites input n (decodeSize n p)⟩))) := by
  rcases Nat.lt_or_ge outBytes cap with hc | hc
  · rw [decodeOp_capacityBeyondBuffer hc] at h; cases h
  refine ⟨hc, ?_⟩
  cases hr : resolveLen .dec inBytes m len input with
  | error e => rw [decodeOp_of_error hc hr] at h; cases h
  | ok n =>
    refine ⟨n, rfl, ?_⟩
    rcases decode_input_cases input n with hn | ⟨hn, p, i, hp, hi, hv⟩ | ⟨p, ht⟩
    · rw [decodeOp_malformed hc hr hn] at h
      exact .inl ⟨hn, (Except.ok.inj h).symm⟩
    · rw [decodeOp_invalid hc hr hn hp hi hv] at h
      exact .inr (.inl ⟨hn, ⟨p, i, hp, hi, hv⟩, (Except.ok.inj h).symm⟩)
    · refine .inr (.inr ⟨p, ht, ?_⟩)
      rcases Nat.lt_or_ge cap (decodeSize n p) with hs | hs
      · rw [decodeOp_insufficient hc hr ht hs] at h; exact .inl ⟨hs, (Except.ok.inj h).symm⟩
      · rw [decodeOp_success hc hr ht hs] at h; exact .inr ⟨hs, (Except.ok.inj h).symm⟩

/-- Everything `Decode` can answer when it refuses. -/
theorem decodeOp_error_cases {e : Refusal} (h : decodeOp outBytes inBytes m len input cap = .error e) :
    (outBytes < cap ∧ e = .capacityBeyondBuffer .dec) ∨
      (cap ≤ outBytes ∧ resolveLen .dec inBytes m len input = .error e) := by
  rcases Nat.lt_or_ge outBytes cap with hc | hc
  · rw [decodeOp_capacityBeyondBuffer hc] at h; exact .inl ⟨hc, (Except.error.inj h).symm⟩
  refine .inr ⟨hc, ?_⟩
  cases hr : resolveLen .dec inBytes m len input with
  | error e' => rw [decodeOp_of_error hc hr] at h; rw [Except.error.inj h]
  | ok n =>
    rcases decode_input_cases input n with hn | ⟨hn, p, i, hp, hi, hv⟩ | ⟨p, ht⟩
    · rw [decodeOp_malformed hc hr hn] at h; cases h
    · rw [decodeOp_invalid hc hr hn hp hi hv] at h; cases h
    · rcases Nat.lt_or_ge cap (decodeSize n p) with hs | hs
      · rw [decodeOp_insufficient hc hr ht hs] at h; cases h
      · rw [decodeOp_success hc hr ht hs] at h; cases h

end Sys2Proof.Machine
end

