-- ==== Sys2Proof/Laws/Encoder.lean ====
section
/-! SUPPORT. Laws/Encoder.lean: what `Encode` answers, the indices it writes, and the byte at each of them. -/

namespace Sys2Proof.Machine

theorem encodeSize_eq (n : Nat) : encodeSize n = 4 * (n / 3) + (if n % 3 = 0 then 0 else 4) := by
  unfold encodeSize ceilDiv
  split <;> omega

/-- Consecutive blocks of `k` indices make one range. -/
theorem flatMap_range_blocks (q k : Nat) :
    (List.range q).flatMap (fun g => (List.range k).map (k * g + ·)) = List.range (k * q) := by
  induction q with
  | zero => simp
  | succ q ih => rw [List.range_succ, List.flatMap_append, ih, Nat.mul_succ, List.range_add]; simp

theorem encodeGroup_indices (input : Nat → Byte) (g : Nat) :
    (encodeGroup input g).map Prod.fst = (List.range 4).map (4 * g + ·) := by
  simp [encodeGroup, List.range_succ]

/-- An encode writes each of `0 .. req-1` once, in ascending order (R49). -/
theorem encodeWrites_indices (input : Nat → Byte) (n : Nat) :
    (encodeWrites input n).map Prod.fst = List.range (encodeSize n) := by
  have hfull : ((List.range (n / 3)).flatMap (encodeGroup input)).map Prod.fst = List.range (4 * (n / 3)) := by
    rw [← flatMap_range_blocks, List.map_flatMap]
    simp only [encodeGroup_indices]
  rw [encodeWrites, List.map_append, hfull, encodeSize_eq]
  have hlt : n % 3 < 3 := Nat.mod_lt _ (by omega)
  match h : n % 3 with
  | 0 => simp [encodeTail]
  | 1 => simp [encodeTail, List.range_succ]
  | 2 => simp [encodeTail, List.range_succ]
  | k + 3 => omega

theorem encodeWrites_nodup (input : Nat → Byte) (n : Nat) : ((encodeWrites input n).map Prod.fst).Nodup := by
  rw [encodeWrites_indices]; exact List.nodup_range

/-- The cells of a full group are written. -/
theorem encodeGroup_subset {input : Nat → Byte} {n g : Nat} (hg : g < n / 3) {c : Host.Cell}
    (hc : c ∈ encodeGroup input g) : c ∈ encodeWrites input n :=
  List.mem_append_left _ (List.mem_flatMap.2 ⟨g, List.mem_range.2 hg, hc⟩)

/-- After the writes of an encode, an unwritten index reads as before and the text is that of the input (R94, R95). -/
theorem encodeWrites_spec {input output : Nat → Byte} {n : Nat}
    (h : ∀ a v, (a, v) ∈ encodeWrites input n → output a = v) : EncodesTo input output n := by
  refine ⟨fun g hg => ?_, fun hr => ?_, fun hr => ?_⟩
  · refine ⟨h _ _ ?_, h _ _ ?_, h _ _ ?_, h _ _ ?_⟩ <;>
      refine encodeGroup_subset hg ?_ <;> simp [encodeGroup, sextet0, sextet1, sextet2, sextet3]
  · refine ⟨h _ _ ?_, h _ _ ?_, h _ _ ?_, h _ _ ?_⟩ <;>
      refine List.mem_append_right _ ?_ <;> rw [hr] <;> simp [encodeTail, sextet0, sextet1, lastSextet2, pad]
  · refine ⟨h _ _ ?_, h _ _ ?_, h _ _ ?_, h _ _ ?_⟩ <;>
      refine List.mem_append_right _ ?_ <;> rw [hr] <;> simp [encodeTail, sextet0, lastSextet1, pad]

variable {outBytes inBytes : Nat} {m : Mode} {len : Nat} {input : Nat → Byte} {cap : Nat}

/-- `refuse(P_CAP)` comes before everything else (R44, R90). -/
theorem encodeOp_capacityBeyondBuffer (h : outBytes < cap) :
    encodeOp outBytes inBytes m len input cap = .error (.capacityBeyondBuffer .enc) := by
  simp [encodeOp, h]

/-- Where `ResolveLen` refuses, `Encode` does (R90, R143). -/
theorem encodeOp_of_error {e : Refusal} (h : cap ≤ outBytes) (hr : resolveLen .enc inBytes m len input = .error e) :
    encodeOp outBytes inBytes m len input cap = .error e := by
  simp [encodeOp, Nat.not_lt.2 h, hr]

/-- A capacity below the required size (R93). -/
theorem encodeOp_insufficient {n : Nat} (h : cap ≤ outBytes) (hr : resolveLen .enc inBytes m len input = .ok n)
    (hc : cap < encodeSize n) :
    encodeOp outBytes inBytes m len input cap = .ok (raise .insufficientBufferCapacity cap) := by
  simp [encodeOp, Nat.not_lt.2 h, hr, hc]

/-- Success (R96). -/
theorem encodeOp_success {n : Nat} (h : cap ≤ outBytes) (hr : resolveLen .enc inBytes m len input = .ok n)
    (hc : encodeSize n ≤ cap) :
    encodeOp outBytes inBytes m len input cap = .ok ⟨.success, encodeSize n, encodeWrites input n⟩ := by
  simp [encodeOp, Nat.not_lt.2 h, hr, Nat.not_lt.2 hc]

/-- Everything `Encode` can answer when it answers a result. -/
theorem encodeOp_cases {r : OpResult} (h : encodeOp outBytes inBytes m len input cap = .ok r) :
    cap ≤ outBytes ∧ ∃ n, resolveLen .enc inBytes m len input = .ok n ∧
      ((cap < encodeSize n ∧ r = raise .insufficientBufferCapacity cap) ∨
        (encodeSize n ≤ cap ∧ r = ⟨.success, encodeSize n, encodeWrites input n⟩)) := by
  rcases Nat.lt_or_ge outBytes cap with hc | hc
  · rw [encodeOp_capacityBeyondBuffer hc] at h; cases h
  refine ⟨hc, ?_⟩
  cases hr : resolveLen .enc inBytes m len input with
  | error e => rw [encodeOp_of_error hc hr] at h; cases h
  | ok n =>
    refine ⟨n, rfl, ?_⟩
    rcases Nat.lt_or_ge cap (encodeSize n) with hs | hs
    · rw [encodeOp_insufficient hc hr hs] at h; exact .inl ⟨hs, (Except.ok.inj h).symm⟩
    · rw [encodeOp_success hc hr hs] at h; exact .inr ⟨hs, (Except.ok.inj h).symm⟩

/-- Everything `Encode` can answer when it refuses. -/
theorem encodeOp_error_cases {e : Refusal} (h : encodeOp outBytes inBytes m len input cap = .error e) :
    (outBytes < cap ∧ e = .capacityBeyondBuffer .enc) ∨
      (cap ≤ outBytes ∧ resolveLen .enc inBytes m len input = .error e) := by
  rcases Nat.lt_or_ge outBytes cap with hc | hc
  · rw [encodeOp_capacityBeyondBuffer hc] at h; exact .inl ⟨hc, (Except.error.inj h).symm⟩
  refine .inr ⟨hc, ?_⟩
  cases hr : resolveLen .enc inBytes m len input with
  | error e' => rw [encodeOp_of_error hc hr] at h; rw [Except.error.inj h]
  | ok n =>
    rcases Nat.lt_or_ge cap (encodeSize n) with hs | hs
    · rw [encodeOp_insufficient hc hr hs] at h; cases h
    · rw [encodeOp_success hc hr hs] at h; cases h

end Sys2Proof.Machine
end

