-- ==== Sys2Proof/Laws/Commands.lean ====
section
/-! SUPPORT. Laws/Commands.lean: what carrying out a command does, said once for the four commands. -/

namespace Sys2Proof.Machine

/-- The operation function of a unit (R29). -/
def operationOf : UnitId → Operation
  | .enc => encodeOp
  | .dec => decodeOp

/-- Every command is its unit's operation under the shared start and completion. -/
theorem exec_eq_runCommand (i : Instr) (s : State) : exec i s = runCommand i.unit i.mode (operationOf i.unit) s := by
  cases i <;> rfl

@[simp] theorem instrOf_unit (u : UnitId) (m : Mode) : (instrOf u m).unit = u := by cases u <;> cases m <;> rfl
@[simp] theorem instrOf_mode (u : UnitId) (m : Mode) : (instrOf u m).mode = m := by cases u <;> cases m <;> rfl
@[simp] theorem instrOf_unit_mode (i : Instr) : instrOf i.unit i.mode = i := by cases i <;> rfl

/-- A unit's operation on its own operands in a state. -/
abbrev State.operate (s : State) (u : UnitId) (m : Mode) : Except Refusal OpResult :=
  operationOf u (s.outBytes u) (s.inBytes u) m (s.unit u).inLen (s.inByte u) (s.unit u).cap

theorem exec_next_iff {i : Instr} {s t : State} :
    exec i s = .next t ↔ ∃ r, s.operate i.unit i.mode = .ok r ∧
      t = s.setUnit i.unit (((s.unit i.unit).start i.mode).complete r) := by
  rw [exec_eq_runCommand, runCommand]
  cases h : s.operate i.unit i.mode with
  | error e => simp [State.operate] at h; simp [h]
  | ok r => simp [State.operate] at h; simp [h, eq_comm]

theorem exec_refused_iff {i : Instr} {s : State} {e : Refusal} :
    exec i s = .refused e ↔ s.operate i.unit i.mode = .error e := by
  rw [exec_eq_runCommand, runCommand]
  cases h : s.operate i.unit i.mode with
  | error e' => simp [State.operate] at h; simp [h]
  | ok r => simp [State.operate] at h; simp [h]

/-- No command ends in a fault. -/
theorem exec_ne_fault (i : Instr) (s : State) (f : Fault) : exec i s ≠ .fault f := by
  rw [exec_eq_runCommand, runCommand]
  split <;> simp

/-- What every result of an operation meets: its status is one of R62's first four; a failure writes nothing and keeps the
capacity; a success writes `0 .. c-1`, each once, with `c` at most the capacity offered (R49, R156, R157). -/
theorem operate_ok {s : State} {u : UnitId} {m : Mode} {r : OpResult} (h : s.operate u m = .ok r) :
    s.capacityFits u ∧ r.cap ≤ (s.unit u).cap ∧ r.status ≠ .nullOrEmptyInput ∧
      (r.status ≠ .success → r = raise r.status (s.unit u).cap) ∧
      (r.status = .success → r.writes.map Prod.fst = List.range r.cap) := by
  cases u with
  | enc =>
    obtain ⟨hc, n, -, ⟨-, rfl⟩ | ⟨hs, rfl⟩⟩ := encodeOp_cases h
    · exact ⟨hc, le_refl _, by simp [raise], by simp [raise], by simp [raise]⟩
    · exact ⟨hc, hs, by simp, by simp, fun _ => encodeWrites_indices _ _⟩
  | dec =>
    obtain ⟨hc, n, -, ⟨-, rfl⟩ | ⟨-, -, rfl⟩ | ⟨p, ht, ⟨-, rfl⟩ | ⟨hs, rfl⟩⟩⟩ := decodeOp_cases h
    · exact ⟨hc, le_refl _, by simp [raise], by simp [raise], by simp [raise]⟩
    · exact ⟨hc, le_refl _, by simp [raise], by simp [raise], by simp [raise]⟩
    · exact ⟨hc, le_refl _, by simp [raise], by simp [raise], by simp [raise]⟩
    · refine ⟨hc, hs, by simp, by simp, fun _ => ?_⟩
      obtain ⟨hn, rfl, -⟩ := legalText_iff.1 ht
      exact decodeWrites_indices _ hn (padCount_le _ _)

/-- Every index an operation writes is below its capacity result. -/
theorem operate_write_lt {s : State} {u : UnitId} {m : Mode} {r : OpResult} (h : s.operate u m = .ok r)
    {c : Host.Cell} (hc : c ∈ r.writes) : c.1 < r.cap := by
  obtain ⟨-, -, -, hf, hs⟩ := operate_ok h
  by_cases hk : r.status = .success
  · have := List.mem_map_of_mem (f := Prod.fst) hc
    rwa [hs hk, List.mem_range] at this
  · rw [hf hk] at hc; simp [raise] at hc

/-- The output byte after a completed command: the value written there, or the byte of before. -/
theorem outByte_complete {s : State} {u : UnitId} {m : Mode} {r : OpResult} (h : s.operate u m = .ok r) (m' : Mode) :
    (∀ a v, (a, v) ∈ r.writes → (s.setUnit u (((s.unit u).start m').complete r)).outByte u a = v) ∧
    ∀ a, a ∉ r.writes.map Prod.fst →
      (s.setUnit u (((s.unit u).start m').complete r)).outByte u a = s.outByte u a := by
  have hn : (r.writes.map Prod.fst).Nodup := by
    obtain ⟨-, -, -, hf, hs⟩ := operate_ok h
    by_cases hk : r.status = .success
    · rw [hs hk]; exact List.nodup_range
    · rw [hf hk]; simp [raise]
  constructor
  · intro a v hv
    simp [State.outByte, State.byteAt, UnitState.buf, Memory.read_writeAll_of_mem _ hn hv]
  · intro a ha
    simp [State.outByte, State.byteAt, UnitState.buf, Memory.read_writeAll_of_not_mem _ _ ha]

/-- The state after a failed operation. -/
theorem complete_raise (s : State) (u : UnitId) (m : Mode) (k : StatusKind) :
    s.setUnit u (((s.unit u).start m).complete (raise k (s.unit u).cap)) = s.failed u m (statusCode k) := by
  cases u <;> rfl

/-- The start step does not change what the completion step leaves: on a unit already started in mode `m`, `start m` changes
nothing but the status, which the completion writes whole. -/
theorem start_complete_of_mode {x : UnitState} {m : Mode} (h : x.mode = m) (r : OpResult) :
    (x.start m).complete r = x.complete r := by
  subst h; rfl

end Sys2Proof.Machine
end

