-- ==== Sys2Proof/Laws/HostActions.lean ====
section
/-! SUPPORT. Laws/HostActions.lean: what each host action answers, and everything a host action can change. -/

namespace Sys2Proof.Machine

/-- A register write is ignored while the unit is busy (R30). -/
theorem writeRegister_busy {s : State} {r : BitVec 3} (v : Nat) (h : (s.unit (registerUnit r)).status.busy = true) :
    s.writeRegister r v = s := by
  simp [State.writeRegister, h]

/-- A register write to an idle unit. -/
theorem writeRegister_idle {s : State} {r : BitVec 3} (v : Nat) (h : (s.unit (registerUnit r)).status.busy = false) :
    s.writeRegister r v = s.setUnit (registerUnit r)
      ((s.unit (registerUnit r)).writeRegister s.params.lenW (registerIndex r) v) := by
  simp [State.writeRegister, h]

@[simp] theorem registerUnit_cmd (u : UnitId) : registerUnit (cmdRegister u) = u := by cases u <;> rfl
@[simp] theorem registerUnit_inLen (u : UnitId) : registerUnit (inLenRegister u) = u := by cases u <;> rfl
@[simp] theorem registerUnit_cap (u : UnitId) : registerUnit (capRegister u) = u := by cases u <;> rfl
@[simp] theorem registerUnit_status (u : UnitId) : registerUnit (statusRegister u) = u := by cases u <;> rfl
@[simp] theorem registerIndex_cmd (u : UnitId) : registerIndex (cmdRegister u) = 0#2 := by cases u <;> rfl
@[simp] theorem registerIndex_inLen (u : UnitId) : registerIndex (inLenRegister u) = 1#2 := by cases u <;> rfl
@[simp] theorem registerIndex_cap (u : UnitId) : registerIndex (capRegister u) = 2#2 := by cases u <;> rfl
@[simp] theorem registerIndex_status (u : UnitId) : registerIndex (statusRegister u) = 3#2 := by cases u <;> rfl

/-- Every register number is one of the four registers of one of the two units (R22). -/
theorem register_cases (r : BitVec 3) : ∃ u, r = cmdRegister u ∨ r = inLenRegister u ∨ r = capRegister u ∨
    r = statusRegister u := by
  refine ⟨registerUnit r, ?_⟩
  revert r; decide

/-- The four things a register write can do to an idle unit. -/
theorem unit_writeRegister_cases (x : UnitState) (lenW : Nat) (k : BitVec 2) (v : Nat) :
    (k = 0#2 ∧ x.writeRegister lenW k v = x.start (modeOfBit (BitVec.ofNat 1 v))) ∨
    (k = 1#2 ∧ x.writeRegister lenW k v = { x with inLen := v % 2 ^ lenW }) ∨
    (k = 2#2 ∧ x.writeRegister lenW k v = { x with cap := v % 2 ^ lenW }) ∨
    (k = 3#2 ∧ x.writeRegister lenW k v = x) := by
  have : k = 0#2 ∨ k = 1#2 ∨ k = 2#2 ∨ k = 3#2 := by revert k; decide
  rcases this with rfl | rfl | rfl | rfl
  · exact .inl ⟨rfl, rfl⟩
  · exact .inr (.inl ⟨rfl, rfl⟩)
  · exact .inr (.inr (.inl ⟨rfl, rfl⟩))
  · exact .inr (.inr (.inr ⟨rfl, rfl⟩))

/-- Everything a host action that goes on can change: one unit's registers while it is idle, one byte of an idle unit's
buffer within its bounds, or nothing of the units. -/
theorem hostPerform_next {a : HostAction} {s t : State} (h : hostPerform a s = .next t) :
    (∃ r v, a = .wr r v ∧ (s.unit (registerUnit r)).status.busy = false ∧ t = s.setUnit (registerUnit r)
      ((s.unit (registerUnit r)).writeRegister s.params.lenW (registerIndex r) v)) ∨
    (∃ u b i v, a = .put u b i v ∧ i < s.bufBytes u b ∧ (s.unit u).status.busy = false ∧
      t = s.setUnit u ((s.unit u).setBuf b (((s.unit u).buf b).write i v))) ∨
    (t.params = s.params ∧ t.launch = s.launch ∧ t.schedule = s.schedule ∧ ∀ u, t.unit u = s.unit u) := by
  cases a with
  | wr r v =>
    cases hb : (s.unit (registerUnit r)).status.busy with
    | true =>
      rw [hostPerform, writeRegister_busy v hb] at h
      cases h
      exact .inr (.inr ⟨rfl, rfl, rfl, fun _ => rfl⟩)
    | false =>
      rw [hostPerform, writeRegister_idle v hb] at h
      cases h
      exact .inl ⟨r, v, rfl, hb, rfl⟩
  | rd r =>
    cases h
    exact .inr (.inr ⟨rfl, rfl, rfl, fun u => by simp [hostRead]⟩)
  | put u b i v =>
    simp only [hostPerform, hostPut] at h
    split at h
    · cases h
    · rename_i hi
      split at h
      · cases h
      · rename_i hb
        cases h
        exact .inr (.inl ⟨u, b, i, v, rfl, Nat.not_le.1 hi, Bool.not_eq_true _ ▸ hb, rfl⟩)
  | get u b i =>
    simp only [hostPerform, hostGet] at h
    split at h
    · cases h
    · split at h <;> cases h
      · exact .inr (.inr ⟨rfl, rfl, rfl, fun v => by cases v <;> rfl⟩)
      · exact .inr (.inr ⟨rfl, rfl, rfl, fun v => by simp⟩)
  | wait u =>
    simp only [hostPerform, hostWait] at h
    split at h <;> cases h
    · exact .inr (.inr ⟨rfl, rfl, rfl, fun v => by simp [hostRead]⟩)
    · exact .inr (.inr ⟨rfl, rfl, rfl, fun v => by cases v <;> rfl⟩)

end Sys2Proof.Machine
end

