-- ==== Sys2Proof/Laws/Step.lean ====
section
/-! SUPPORT. Laws/Step.lean: everything a step can do, said once. -/

namespace Sys2Proof.Machine

/-- The command word of a unit decodes to the command of that unit in its mode. -/
@[simp] theorem decodeCommand_fetchWord (s : State) (u : UnitId) :
    decodeCommand (s.fetchWord u) = instrOf u (s.unit u).mode := by
  cases u <;> cases h : (s.unit _).mode <;> simp only [State.fetchWord, h] <;> rfl

theorem step_host {s : State} (h : s.nextTurn = .host) : step s = hostTurn s.popTurn := by simp [step, h]
theorem step_unit {s : State} {u : UnitId} (h : s.nextTurn = .unit u) : step s = unitTurn u s.popTurn := by simp [step, h]
theorem step_reset {s : State} (h : s.nextTurn = .reset) : step s = .next s.popTurn.resetEvent := by simp [step, h]

theorem hostTurn_nil {s : State} (h : s.program = []) : hostTurn s = .next s := by simp [hostTurn, h]
theorem hostTurn_cons {s : State} {a : HostAction} {rest : List HostAction} (h : s.program = a :: rest) :
    hostTurn s = hostPerform a { s with program := rest } := by simp [hostTurn, h]

/-- The host's turn with an action pending: the action is performed on the state from which it and the turn are taken. -/
theorem step_hostAction {s : State} {a : HostAction} {rest : List HostAction} (h : s.nextTurn = .host)
    (hp : s.program = a :: rest) :
    step s = hostPerform a { s with program := rest, schedule := s.schedule.tail } := by
  rw [step_host h, hostTurn_cons (by simpa using hp)]; rfl

theorem unitTurn_busy {s : State} {u : UnitId} (h : (s.unit u).status.busy = true) :
    unitTurn u s = exec (instrOf u (s.unit u).mode) s := by simp [unitTurn, h]
theorem unitTurn_idle {s : State} {u : UnitId} (h : (s.unit u).status.busy = false) : unitTurn u s = .next s := by
  simp [unitTurn, h]

/-- Every step that goes on is one of five: the host has nothing to do, a host action, a completion, an idle unit's turn,
or the reset event. -/
theorem step_cases {s t : State} (h : step s = .next t) :
    (s.nextTurn = .host ∧ s.program = [] ∧ t = s.popTurn) ∨
    (∃ a rest, s.nextTurn = .host ∧ s.program = a :: rest ∧ hostPerform a { s.popTurn with program := rest } = .next t) ∨
    (∃ u r, s.nextTurn = .unit u ∧ (s.unit u).status.busy = true ∧ s.operate u (s.unit u).mode = .ok r ∧
      t = s.popTurn.setUnit u ((s.unit u).complete r)) ∨
    (∃ u, s.nextTurn = .unit u ∧ (s.unit u).status.busy = false ∧ t = s.popTurn) ∨
    (s.nextTurn = .reset ∧ t = s.popTurn.resetEvent) := by
  cases hn : s.nextTurn with
  | host =>
    rw [step_host hn] at h
    cases hp : s.program with
    | nil =>
      rw [hostTurn_nil (by simpa using hp)] at h
      cases h; exact .inl ⟨rfl, rfl, rfl⟩
    | cons a rest =>
      rw [hostTurn_cons (by simpa using hp)] at h
      exact .inr (.inl ⟨a, rest, rfl, rfl, h⟩)
  | unit u =>
    rw [step_unit hn] at h
    cases hb : (s.unit u).status.busy with
    | true =>
      rw [unitTurn_busy (by simpa using hb), exec_next_iff] at h
      obtain ⟨r, hr, rfl⟩ := h
      simp only [instrOf_unit, instrOf_mode, popTurn_unit] at hr ⊢
      refine .inr (.inr (.inl ⟨u, r, rfl, hb, ?_, ?_⟩))
      · rw [← hr]; simp only [State.operate, popTurn_unit]; congr 1
      · rw [start_complete_of_mode rfl]
    | false =>
      rw [unitTurn_idle (by simpa using hb)] at h
      cases h; exact .inr (.inr (.inr (.inl ⟨u, rfl, hb, rfl⟩)))
  | reset =>
    rw [step_reset hn] at h
    cases h; exact .inr (.inr (.inr (.inr ⟨rfl, rfl⟩)))

end Sys2Proof.Machine
end

