-- ==== Sys2Proof/Laws/Footprint.lean ====
section
/-! SUPPORT. Laws/Footprint.lean: what the operations read (10_state.md R33, 20_memory.md R48): each of their parts depends only
on the bytes of the logical input; that every command with its preconditions completes; and what a host action leaves alone. -/

namespace Sys2Proof.Machine

section
variable {f g : Nat → Byte} {n : Nat}

theorem encodeWrites_congr (h : ∀ a < n, f a = g a) : encodeWrites f n = encodeWrites g n := by
  unfold encodeWrites
  congr 1
  · apply List.flatMap_congr
    intro k hk; rw [List.mem_range] at hk
    simp only [encodeGroup]; rw [h _ (by omega), h _ (by omega), h _ (by omega)]
  · have : n % 3 = 0 ∨ n % 3 = 1 ∨ n % 3 = 2 := by omega
    rcases this with e | e | e <;> rw [e] <;> simp only [encodeTail]
    · rw [h _ (by omega)]
    · rw [h _ (by omega), h _ (by omega)]

theorem decodeWrites_congr (h : ∀ a < n, f a = g a) (req : Nat) : decodeWrites f n req = decodeWrites g n req := by
  unfold decodeWrites
  apply List.flatMap_congr
  intro k hk; rw [List.mem_range] at hk
  simp only [decodeGroup]; rw [h _ (by omega), h _ (by omega), h _ (by omega), h _ (by omega)]

theorem allSymbols_congr (h : ∀ a < n, f a = g a) : allSymbols f n = allSymbols g n := by
  rw [Bool.eq_iff_iff, allSymbols_iff, allSymbols_iff]
  constructor <;> intro hh i hi
  · rw [← h i hi]; exact hh i hi
  · rw [h i hi]; exact hh i hi

/-- Where two logical inputs have the same length and the same bytes, the operation gives the same result. -/
theorem operationOf_congr {u : UnitId} {m m' : Mode} {outBytes inBytes inBytes' len len' cap : Nat} (h : ∀ a < n, f a = g a)
    (h1 : resolveLen u inBytes m len f = .ok n) (h2 : resolveLen u inBytes' m' len' g = .ok n) :
    operationOf u outBytes inBytes m len f cap = operationOf u outBytes inBytes' m' len' g cap := by
  cases u
  · simp only [operationOf, encodeOp, h1, h2, encodeWrites_congr h]
  · simp only [operationOf, decodeOp, h1, h2]
    by_cases hn : n = 0 ∨ n % 4 ≠ 0
    · simp only [hn, if_true]
    · have hp : padCount f n = padCount g n := by
        unfold padCount; rw [h _ (by omega), h _ (by omega)]
      simp only [hn, if_false, hp, decodeWrites_congr h]
      rw [allSymbols_congr (fun a ha => h a (by omega))]

end

/-- A command whose capacity fits and whose length resolves gives a result. -/
theorem operate_total {u : UnitId} {m : Mode} {s : State} {n : Nat} (hc : s.capacityFits u) (hr : s.resolves u m n) :
    ∃ r, s.operate u m = .ok r := by
  cases ho : s.operate u m with
  | ok r => exact ⟨r, rfl⟩
  | error e =>
    have hno : resolveLen u (s.inBytes u) m (s.unit u).inLen (s.inByte u) ≠ .error e := by
      rw [resolveLen_eq_ok.2 hr]; simp
    cases u
    · rcases encodeOp_error_cases ho with ⟨h, -⟩ | ⟨-, h⟩
      · exact absurd hc (Nat.not_le.2 h)
      · exact absurd h hno
    · rcases decodeOp_error_cases ho with ⟨h, -⟩ | ⟨-, h⟩
      · exact absurd hc (Nat.not_le.2 h)
      · exact absurd h hno

/-- Where two states give the same result and the same prior output byte, the output byte after is the same. -/
theorem outByte_complete_congr {u : UnitId} {s s' : State} {m m' : Mode} {r : OpResult} (hr : s.operate u m = .ok r)
    (hr' : s'.operate u m' = .ok r) {a : Nat} (ho : s'.outByte u a = s.outByte u a) :
    (s'.setUnit u (((s'.unit u).start m').complete r)).outByte u a
      = (s.setUnit u (((s.unit u).start m).complete r)).outByte u a := by
  by_cases ha : a ∈ r.writes.map Prod.fst
  · obtain ⟨⟨a, v⟩, hc, rfl⟩ := List.mem_map.1 ha
    rw [(outByte_complete hr m).1 _ _ hc, (outByte_complete hr' m').1 _ _ hc]
  · rw [(outByte_complete hr m).2 _ ha, (outByte_complete hr' m').2 _ ha, ho]

/-- The host never changes a busy unit. -/
theorem hostPerform_unit_of_busy {a : HostAction} {s t : State} {u : UnitId} (h : hostPerform a s = .next t)
    (hb : (s.unit u).status.busy = true) : t.unit u = s.unit u := by
  rcases hostPerform_next h with ⟨r, v, -, hbb, rfl⟩ | ⟨u', b, i, v, -, -, hbb, rfl⟩ | ⟨-, -, -, hu⟩
  · exact unit_of_ne _ _ _ (by rintro rfl; simp [hb] at hbb)
  · exact unit_of_ne _ _ _ (by rintro rfl; simp [hb] at hbb)
  · exact hu u

/-- The host changes neither the parameters nor the launch number. -/
theorem hostPerform_params_launch {a : HostAction} {s t : State} (h : hostPerform a s = .next t) :
    t.params = s.params ∧ t.launch = s.launch := by
  rcases hostPerform_next h with ⟨r, v, -, -, rfl⟩ | ⟨u', b, i, v, -, -, -, rfl⟩ | ⟨h1, h2, -, -⟩
  · simp
  · simp
  · exact ⟨h1, h2⟩

theorem takeAction_unit (s : State) (rest : List HostAction) (u : UnitId) :
    State.unit { s with program := rest } u = s.unit u := by cases u <;> rfl

/-- The mode a value written to `CMD` selects: its bit 0 (R23). -/
theorem modeOfBit_ofNat (v : Nat) : modeOfBit (BitVec.ofNat 1 v) = if v % 2 = 0 then .raw else .str := by
  unfold modeOfBit
  have : (BitVec.ofNat 1 v = 0#1) ↔ v % 2 = 0 := by
    rw [← BitVec.toNat_inj]; simp
  simp only [this]

/-- The register numbers of the table of R22. -/
theorem registerNumber_eq (u : UnitId) : registerNumber u 0 = cmdRegister u ∧ registerNumber u 1 = inLenRegister u ∧
    registerNumber u 2 = capRegister u ∧ registerNumber u 3 = statusRegister u := by
  cases u <;> decide

end Sys2Proof.Machine
end

