-- ==== Sys2Proof/Laws/Groups.lean ====
section
/-! SUPPORT. Laws/Groups.lean: the two views of the 24-bit group (30_encoding.md R70, R73) are inverse to each other, byte by
byte and sextet by sextet; and what the zero fill of a partial group leaves (R72). -/

namespace Sys2Proof.Machine

theorem groupByte0_sextets (b0 b1 : Byte) : groupByte0 (sextet0 b0) (sextet1 b0 b1) = b0 := by
  unfold groupByte0 sextet0 sextet1
  ext i hi
  simp only [BitVec.getElem_append, BitVec.getElem_extractLsb', BitVec.getLsbD_append,
    BitVec.getLsbD_extractLsb']
  interval_cases i <;> simp

theorem groupByte1_sextets (b0 b1 b2 : Byte) : groupByte1 (sextet1 b0 b1) (sextet2 b1 b2) = b1 := by
  unfold groupByte1 sextet1 sextet2
  ext i hi
  simp only [BitVec.getElem_append, BitVec.getElem_extractLsb', BitVec.getLsbD_append,
    BitVec.getLsbD_extractLsb']
  interval_cases i <;> simp

theorem groupByte2_sextets (b1 b2 : Byte) : groupByte2 (sextet2 b1 b2) (sextet3 b2) = b2 := by
  unfold groupByte2 sextet2 sextet3
  ext i hi
  simp only [BitVec.getElem_append, BitVec.getElem_extractLsb', BitVec.getLsbD_append,
    BitVec.getLsbD_extractLsb']
  interval_cases i <;> simp

theorem groupByte0_lastSextet1 (b0 : Byte) : groupByte0 (sextet0 b0) (lastSextet1 b0) = b0 := by
  revert b0; decide

theorem groupByte1_lastSextet2 (b0 b1 : Byte) : groupByte1 (sextet1 b0 b1) (lastSextet2 b1) = b1 := by
  unfold groupByte1 sextet1 lastSextet2
  ext i hi
  simp only [BitVec.getElem_append, BitVec.getElem_extractLsb', BitVec.getLsbD_append,
    BitVec.getLsbD_extractLsb']
  interval_cases i <;> simp

theorem sextet0_groupByte0 (s0 s1 : Sextet) : sextet0 (groupByte0 s0 s1) = s0 := by
  unfold groupByte0 sextet0
  ext i hi
  simp only [BitVec.getElem_extractLsb', BitVec.getLsbD_append, BitVec.getLsbD_extractLsb']
  interval_cases i <;> simp

theorem sextet1_groupBytes (s0 s1 s2 : Sextet) : sextet1 (groupByte0 s0 s1) (groupByte1 s1 s2) = s1 := by
  unfold groupByte0 groupByte1 sextet1
  ext i hi
  simp only [BitVec.getElem_append, BitVec.getElem_extractLsb', BitVec.getLsbD_append,
    BitVec.getLsbD_extractLsb']
  interval_cases i <;> simp

theorem sextet2_groupBytes (s1 s2 s3 : Sextet) : sextet2 (groupByte1 s1 s2) (groupByte2 s2 s3) = s2 := by
  unfold groupByte1 groupByte2 sextet2
  ext i hi
  simp only [BitVec.getElem_append, BitVec.getElem_extractLsb', BitVec.getLsbD_append,
    BitVec.getLsbD_extractLsb']
  interval_cases i <;> simp

theorem sextet3_groupByte2 (s2 s3 : Sextet) : sextet3 (groupByte2 s2 s3) = s3 := by
  unfold groupByte2 sextet3
  ext i hi
  simp only [BitVec.getElem_extractLsb', BitVec.getLsbD_append, BitVec.getLsbD_extractLsb']
  interval_cases i <;> simp

/-- The last sextet of a one-byte group is the original exactly where its low four bits are zero (R74). -/
theorem lastSextet1_groupByte0 (s0 s1 : Sextet) :
    lastSextet1 (groupByte0 s0 s1) = s1 ↔ s1.extractLsb' 0 4 = 0#4 := by
  have h : lastSextet1 (groupByte0 s0 s1) = s1.extractLsb' 4 2 ++ 0#4 := by
    unfold groupByte0 lastSextet1
    ext i hi
    simp only [BitVec.getElem_append, BitVec.getElem_extractLsb', BitVec.getLsbD_append,
      BitVec.getLsbD_extractLsb']
    interval_cases i <;> simp
  rw [h]; clear h; revert s1; decide

/-- The last sextet of a two-byte group is the original exactly where its low two bits are zero (R74). -/
theorem lastSextet2_groupByte1 (s1 s2 : Sextet) :
    lastSextet2 (groupByte1 s1 s2) = s2 ↔ s2.extractLsb' 0 2 = 0#2 := by
  have h : lastSextet2 (groupByte1 s1 s2) = s2.extractLsb' 2 4 ++ 0#2 := by
    unfold groupByte1 lastSextet2
    ext i hi
    simp only [BitVec.getElem_append, BitVec.getElem_extractLsb', BitVec.getLsbD_append,
      BitVec.getLsbD_extractLsb']
    interval_cases i <;> simp
  rw [h]; clear h; revert s2; decide

end Sys2Proof.Machine
end

