-- ==== Sys2Proof/Laws/Invariant.lean ====
section
/-! SUPPORT. Laws/Invariant.lean: each update of a unit keeps the unit well-formed, one lemma per update. -/

namespace Sys2Proof.Machine

theorem Memory.fits_nil (k : Nat) : Memory.fits [] k := ⟨Memory.wf_nil, by simp⟩

theorem Memory.fits_write {m : Memory} {k a : Nat} (h : m.fits k) (ha : a < k) (v : Byte) : (m.write a v).fits k := by
  refine ⟨Memory.wf_write h.1 a v, fun c hc => ?_⟩
  rcases Memory.mem_write hc with rfl | hc
  · exact ha
  · exact h.2 c hc

theorem Memory.fits_writeAll {m : Memory} {k : Nat} (h : m.fits k) {ws : List Host.Cell} (hw : ∀ c ∈ ws, c.1 < k) :
    (m.writeAll ws).fits k := by
  refine ⟨Memory.wf_writeAll h.1 ws, fun c hc => ?_⟩
  rcases Memory.mem_writeAll hc with hc | hc
  · exact hw c hc
  · exact h.2 c hc

theorem statusCode_le {k : StatusKind} (h : k ≠ .nullOrEmptyInput) : (statusCode k).toNat ≤ 3 := by
  cases k <;> first | decide | exact absurd rfl h

theorem statusCode_eq_zero {k : StatusKind} : statusCode k = 0#3 ↔ k = .success := by cases k <;> decide

theorem Status.wf_started : Status.started.wf := by decide

theorem Status.wf_completed {k : StatusKind} (h : k ≠ .nullOrEmptyInput) : (Status.completed k).wf :=
  ⟨statusCode_le h, by simp, by simp⟩

section
variable {x : UnitState} {w i o : Nat}

theorem UnitState.wf_start (h : x.wf w i o) (m : Mode) : (x.start m).wf w i o :=
  ⟨h.1, h.2.1, Status.wf_started, h.2.2.2⟩

/-- A completion keeps a unit well-formed when its capacity result and its writes are within the output buffer. -/
theorem UnitState.wf_complete (h : x.wf w i o) {r : OpResult} (hc : r.cap < 2 ^ w) (hk : r.status ≠ .nullOrEmptyInput)
    (hw : ∀ c ∈ r.writes, c.1 < o) : (x.complete r).wf w i o :=
  ⟨h.1, hc, Status.wf_completed hk, h.2.2.2.1, Memory.fits_writeAll h.2.2.2.2 hw⟩

theorem UnitState.wf_writeRegister (h : x.wf w i o) (k : BitVec 2) (v : Nat) : (x.writeRegister w k v).wf w i o := by
  have hv : v % 2 ^ w < 2 ^ w := Nat.mod_lt _ (Nat.two_pow_pos w)
  rcases unit_writeRegister_cases x w k v with ⟨-, e⟩ | ⟨-, e⟩ | ⟨-, e⟩ | ⟨-, e⟩ <;> rw [e]
  · exact UnitState.wf_start h _
  · exact ⟨hv, h.2⟩
  · exact ⟨h.1, hv, h.2.2⟩
  · exact h

theorem UnitState.wf_setBuf_write (h : x.wf w i o) (b : Buf) {a : Nat} (ha : a < match b with | .input => i | .output => o)
    (v : Byte) : (x.setBuf b ((x.buf b).write a v)).wf w i o := by
  cases b
  · exact ⟨h.1, h.2.1, h.2.2.1, Memory.fits_write h.2.2.2.1 ha v, h.2.2.2.2⟩
  · exact ⟨h.1, h.2.1, h.2.2.1, h.2.2.2.1, Memory.fits_write h.2.2.2.2 ha v⟩

theorem UnitState.wf_reset : UnitState.reset.wf w i o :=
  ⟨Nat.two_pow_pos w, Nat.two_pow_pos w, by decide, Memory.fits_nil i, Memory.fits_nil o⟩

end

/-- The invariant, unit by unit. -/
theorem State.wf_iff {s : State} : s.wf ↔ s.params.wellFormed = true ∧
    ∀ u, (s.unit u).wf s.params.lenW (s.inBytes u) (s.outBytes u) := by
  constructor
  · rintro ⟨hp, he, hd⟩
    exact ⟨hp, fun u => by cases u; exacts [he, hd]⟩
  · rintro ⟨hp, hu⟩
    exact ⟨hp, hu .enc, hu .dec⟩

theorem State.wf_setUnit {s : State} {u : UnitId} {x : UnitState} (h : s.wf)
    (hx : x.wf s.params.lenW (s.inBytes u) (s.outBytes u)) : (s.setUnit u x).wf := by
  cases u
  · exact ⟨h.1, hx, h.2.2⟩
  · exact ⟨h.1, h.2.1, hx⟩

theorem State.wf_popTurn {s : State} (h : s.wf) : s.popTurn.wf := h

/-- The completion of an operation keeps the invariant (R49: what is written lies below the capacity, which `P_CAP` keeps within
the buffer). -/
theorem State.wf_complete {s : State} {u : UnitId} {m : Mode} {r : OpResult} (h : s.wf) (hr : s.operate u m = .ok r) :
    (s.setUnit u ((s.unit u).complete r)).wf := by
  obtain ⟨hc, hle, hk, -, -⟩ := operate_ok hr
  have hu := (State.wf_iff.1 h).2 u
  exact State.wf_setUnit h (UnitState.wf_complete hu (lt_of_le_of_lt hle hu.2.1) hk
    fun c hm => lt_of_lt_of_le (operate_write_lt hr hm) (le_trans hle hc))

theorem State.wf_resetEvent {s : State} (h : s.wf) : s.resetEvent.wf := ⟨h.1, UnitState.wf_reset, UnitState.wf_reset⟩

end Sys2Proof.Machine
end

