-- ==== Sys2Proof/Laws/PerInstr.lean ====
section
/-! SUPPORT. Laws/PerInstr.lean: what holds of each command as syntax: its row of the opcode table (30_encoding.md R61). -/

namespace Sys2Proof.Laws.CommandRow

/-- The command is well-formed, it is the command of its unit in its mode, and its word is `OP` above `MODE` (R60). -/
def Statement (i : Instr) : Prop :=
  i.wellFormed = true ∧ instrOf i.unit i.mode = i ∧ commandWord i = opOfUnit i.unit ++ bitOfMode i.mode

theorem encRaw : Statement .encRaw := by simp only [Statement]; decide
theorem encStr : Statement .encStr := by simp only [Statement]; decide
theorem decRaw : Statement .decRaw := by simp only [Statement]; decide
theorem decStr : Statement .decStr := by simp only [Statement]; decide

end Sys2Proof.Laws.CommandRow
end

