-- ==== Sys2Proof/Tests/Slice0.lean ====
section
/-! SUPPORT. Tests/Slice0.lean: the model's own tests (expected results from spec/95_test_vectors.md and from the encoding
tables of spec/30_encoding.md, never from the model) and the witnesses that the hypotheses of the statements can be met. -/

namespace Sys2Proof.Tests

open Sys2Proof Sys2Proof.Machine

/-! ### A small state -/

/-- The parameters of the vectors: `LEN_W = 32`, every buffer 16 bytes. -/
def params : Params := ⟨32, 16, 16, 16, 16⟩

/-- Written bytes from index 0 on. -/
def cells (bytes : List Byte) : Memory := bytes.zipIdx.map fun c => (c.2, c.1)

/-- A unit whose `IN` holds `input`, whose `OUT` holds twelve sentinels `AA`. -/
def unitWith (status : Status) (len cap : Nat) (input : List Byte) : UnitState :=
  ⟨.raw, len, cap, status, cells input, cells (List.replicate 12 0xAA)⟩

/-- Both units idle, with the same operands. -/
def idle (len cap : Nat) (input : List Byte) : State :=
  ⟨params, unitWith ⟨0, false, false⟩ len cap input, unitWith ⟨0, false, false⟩ len cap input, 0, 0, [], [], []⟩

/-- Both units started. -/
def busy (len cap : Nat) (input : List Byte) : State :=
  ⟨params, unitWith .started len cap input, unitWith .started len cap input, 0, 0, [], [], []⟩

/-- The state with these host actions pending. -/
def withProgram (s : State) (p : List HostAction) : State := { s with program := p }

/-- The state with these turns scheduled. -/
def withSchedule (s : State) (k : List Turn) : State := { s with schedule := k }

/-- `CODE`, `CAP` and the first bytes of `OUT` of a unit after a step that goes on. -/
def result (u : UnitId) (count : Nat) : Host.Outcome State Fault Refusal → Option (Nat × Nat × List Byte)
  | .next t => some ((t.unit u).status.code.toNat, (t.unit u).cap, (List.range count).map (t.outByte u))
  | _ => none

/-- The refusal an outcome is. -/
def refusal : Host.Outcome State Fault Refusal → Option Refusal
  | .refused r => some r
  | _ => none

/-! ### WellFormed: one ill-formed choice of parameters for each check -/

theorem test_params_legal : Params.wellFormed ⟨8, 1, 0, 256, 255⟩ = true := by decide
theorem test_illformed_width : Params.wellFormed ⟨7, 16, 16, 16, 16⟩ = false := by decide
theorem test_illformed_enc_in_empty : Params.wellFormed ⟨8, 0, 16, 16, 16⟩ = false := by decide
theorem test_illformed_enc_in_large : Params.wellFormed ⟨8, 257, 16, 16, 16⟩ = false := by decide
theorem test_illformed_dec_in_empty : Params.wellFormed ⟨8, 16, 16, 0, 16⟩ = false := by decide
theorem test_illformed_dec_in_large : Params.wellFormed ⟨8, 16, 16, 257, 16⟩ = false := by decide
theorem test_illformed_enc_out_large : Params.wellFormed ⟨8, 16, 256, 16, 16⟩ = false := by decide
theorem test_illformed_dec_out_large : Params.wellFormed ⟨8, 16, 16, 16, 256⟩ = false := by decide

/-! ### Decoding: every word of the table of R61, `OP` bit 1 and `MODE` bit 0, written out -/

theorem test_decode_enc_raw : decode [0b00000000#8, 0xAA] = .ok (.encRaw, [0xAA]) := by decide
theorem test_decode_enc_str : decode [0b00000001#8] = .ok (.encStr, []) := by decide
theorem test_decode_dec_raw : decode [0b00000010#8] = .ok (.decRaw, []) := by decide
theorem test_decode_dec_str : decode [0b00000011#8] = .ok (.decStr, []) := by decide
theorem test_decode_nothing : decode [] = .error .noCommandByte := by decide
theorem test_table_enc_raw : decodeTableWord 2 0 = some .encRaw ∧ decodeTableWord 8 0 = some .encRaw := by decide
theorem test_table_enc_str : decodeTableWord 2 1 = some .encStr ∧ decodeTableWord 8 1 = some .encStr := by decide
theorem test_table_dec_raw : decodeTableWord 2 2 = some .decRaw ∧ decodeTableWord 8 2 = some .decRaw := by decide
theorem test_table_dec_str : decodeTableWord 2 3 = some .decStr ∧ decodeTableWord 8 3 = some .decStr := by decide
theorem test_encode_words : encode .encRaw = [0x00] ∧ encode .encStr = [0x01] ∧ encode .decRaw = [0x02] ∧
    encode .decStr = [0x03] := by decide

/-! ### The commands: at most two vectors each -/

/-- DE7: `fooba` gives `Zm9vYmE=`; bytes 8 to 11 keep the sentinel. -/
theorem test_enc_raw_DE7 : result .enc 12 (exec .encRaw (idle 5 8 [0x66, 0x6F, 0x6F, 0x62, 0x61])) =
    some (0, 8, [0x5A, 0x6D, 0x39, 0x76, 0x59, 0x6D, 0x45, 0x3D, 0xAA, 0xAA, 0xAA, 0xAA]) := by decide

/-- DE31: capacity for the full group only: nothing is written. -/
theorem test_enc_raw_DE31 : result .enc 12 (exec .encRaw (idle 4 4 [0x66, 0x6F, 0x6F, 0x62])) =
    some (1, 4, List.replicate 12 0xAA) := by decide

/-- DE35: the first zero byte ends the input; the fill of the open bits is zero. -/
theorem test_enc_str_DE35 : result .enc 6 (exec .encStr (idle 9 4 [0x66, 0x00, 0x6F, 0x00])) =
    some (0, 4, [0x5A, 0x67, 0x3D, 0x3D, 0xAA, 0xAA]) := by decide

/-- DE44: sixteen bytes, none of them zero. -/
theorem test_enc_str_DE44 : refusal (exec .encStr (idle 0 16 (List.replicate 16 0x41))) = some (.noTerminator .enc) := by
  decide

/-- DD5: `Zm9vYmE=` gives `fooba`. -/
theorem test_dec_raw_DD5 : result .dec 8 (exec .decRaw (idle 8 5 [0x5A, 0x6D, 0x39, 0x76, 0x59, 0x6D, 0x45, 0x3D])) =
    some (0, 5, [0x66, 0x6F, 0x6F, 0x62, 0x61, 0xAA, 0xAA, 0xAA]) := by decide

/-- DD37: `Zg=A` is `InvalidCharacter`. -/
theorem test_dec_raw_DD37 : result .dec 3 (exec .decRaw (idle 4 16 [0x5A, 0x67, 0x3D, 0x41])) =
    some (3, 16, [0xAA, 0xAA, 0xAA]) := by decide

/-- DD71: bytes after the terminator are never looked at. -/
theorem test_dec_str_DD71 : result .dec 4 (exec .decStr (idle 0 3 [0x5A, 0x6D, 0x39, 0x76, 0x00, 0x67, 0x21])) =
    some (0, 3, [0x66, 0x6F, 0x6F, 0xAA]) := by decide

/-- DD75: a zero byte in the middle of text in string mode makes the length wrong. -/
theorem test_dec_str_DD75 : result .dec 2 (exec .decStr (idle 0 16 [0x5A, 0x6D, 0x39, 0x00, 0x76, 0x00])) =
    some (2, 16, [0xAA, 0xAA]) := by decide

/-! ### Registers, steps, the fetch -/

/-- R22, R25 (95_test_vectors.md: `0x10` busy, `0x08` done with `Success`, `0x0B` done with `InvalidCharacter`). -/
theorem test_status_words : (Status.started.word = 0x10#5) ∧ ((Status.completed .success).word = 0x08#5) ∧
    ((Status.completed .invalidCharacter).word = 0x0B#5) := by decide

/-- R22: a write wider than the register loses its upper bits. -/
theorem test_in_len_write_truncates : (((idle 0 0 []).writeRegister 5#3 (2 ^ 32 + 7)).dec.inLen, ((idle 0 0 []).writeRegister
    5#3 (2 ^ 32 + 7)).enc.inLen) = (7, 0) := by decide

/-- From the state after reset, the planted `DEC.RAW` runs in the next step: an empty input is malformed (DD20). -/
theorem test_first_command_after_reset : result .dec 0 (step (State.reset.withFetchWord 8 2)) = some (2, 0, []) := by decide

/-- From the state after reset, the planted `ENC.RAW` runs in the next step: an empty input succeeds (DE1). -/
theorem test_first_encode_after_reset : result .enc 0 (step (State.reset.withFetchWord 8 0)) = some (0, 0, []) := by decide

/-! ### Witnesses: the hypotheses of each statement can be met, clause by clause -/

/-- Each range of the table of R68 at both of its ends, with the entry the table gives there. -/
theorem witness_ReverseTableByRanges :
    rev 0x00#8 = none ∧ rev 0x2A#8 = none ∧ rev 0x2B#8 = some 62#6 ∧ rev 0x2C#8 = none ∧ rev 0x2E#8 = none ∧
    rev 0x2F#8 = some 63#6 ∧ rev 0x30#8 = some 52#6 ∧ rev 0x39#8 = some 61#6 ∧ rev 0x3A#8 = none ∧ rev 0x40#8 = none ∧
    rev 0x41#8 = some 0#6 ∧ rev 0x5A#8 = some 25#6 ∧ rev 0x5B#8 = none ∧ rev 0x60#8 = none ∧ rev 0x61#8 = some 26#6 ∧
    rev 0x7A#8 = some 51#6 ∧ rev 0x7B#8 = none ∧ rev 0xFF#8 = none := by decide

/-- A valid entry: the hypothesis of the second clause. -/
theorem witness_ReverseTableInvertsAlphabet : rev 0x2F#8 = some 63#6 := by decide

/-- The round trip's clause for a well-formed command. -/
theorem witness_DecodeAndEncodeAgree : Instr.decStr.wellFormed = true ∧ (∃ r, decode (encode .decStr ++ [7]) = .ok r) := by
  exact ⟨rfl, _, rfl⟩

theorem witness_StatusCodesAndTheirProducers :
    (∃ t, exec (instrOf .enc .str) (idle 0 4 [0x66, 0x00]) = .next t) ∧
    (∃ t, exec (instrOf .dec .raw) (idle 4 0 [0x5A, 0x67, 0x3D, 0x41]) = .next t) ∧
    (1#3).toNat ≤ 1 ∧ (3#3).toNat ≤ 3 := ⟨⟨_, rfl⟩, ⟨_, rfl⟩, by decide, by decide⟩

theorem witness_ResetEventClearsBothUnits : (withSchedule (busy 4 4 []) [.reset]).nextTurn = .reset := rfl

theorem witness_StepRunsTheDecodedCommand : ∃ i rest, (busy 4 4 []).nextTurn = .unit .enc ∧
    ((busy 4 4 []).unit .enc).status.busy = true ∧
    decode (((busy 4 4 []).fetchWord .enc).zeroExtend 8 :: []) = .ok (i, rest) := ⟨_, _, rfl, rfl, rfl⟩

theorem witness_TurnsAndIdleTurns :
    (withSchedule (idle 0 0 []) [.unit .dec, .host]).schedule = .unit .dec :: [.host] ∧
    ((busy 0 0 []).schedule = [] ∧ (busy 0 0 []).enc.status.busy = true) ∧
    (((busy 0 0 []).setUnit .enc .reset).schedule = [] ∧ ((busy 0 0 []).setUnit .enc .reset).enc.status.busy = false ∧
      ((busy 0 0 []).setUnit .enc .reset).dec.status.busy = true) ∧
    ((idle 0 0 []).schedule = [] ∧ (idle 0 0 []).enc.status.busy = false ∧ (idle 0 0 []).dec.status.busy = false) ∧
    ((withSchedule (idle 0 0 []) [.unit .dec]).nextTurn = .unit .dec ∧
      ((withSchedule (idle 0 0 []) [.unit .dec]).unit .dec).status.busy = false) ∧
    ((idle 0 0 []).nextTurn = .host ∧ (idle 0 0 []).program = []) := by decide

theorem witness_CommandWriteStartsTheUnit :
    (withProgram (idle 0 0 []) [.wr (registerNumber .dec 0) 3]).nextTurn = .host ∧
    (withProgram (idle 0 0 []) [.wr (registerNumber .dec 0) 3]).program = .wr (registerNumber .dec 0) 3 :: [] ∧
    ((withProgram (idle 0 0 []) [.wr (registerNumber .dec 0) 3]).unit .dec).status.busy = false := by decide

theorem witness_RegisterWritesOfAnIdleUnit : ∀ k ∈ [1, 2, 3],
    (withProgram (idle 0 0 []) [.wr (registerNumber .enc k) (2 ^ 32)]).nextTurn = .host ∧
    ((withProgram (idle 0 0 []) [.wr (registerNumber .enc k) (2 ^ 32)]).unit .enc).status.busy = false ∧
    (withProgram (idle 0 0 []) [.wr (registerNumber .enc k) (2 ^ 32)]).program = .wr (registerNumber .enc k) (2 ^ 32) :: [] := by
  decide

theorem witness_BusyUnitIgnoresRegisterWrites : ∀ k ∈ [0, 3], k ≤ 3 ∧
    (withSchedule (withProgram (busy 0 0 []) [.wr (registerNumber .dec k) 1]) [.host]).nextTurn = .host ∧
    (withSchedule (withProgram (busy 0 0 []) [.wr (registerNumber .dec k) 1]) [.host]).program
      = .wr (registerNumber .dec k) 1 :: [] ∧
    ((withSchedule (withProgram (busy 0 0 []) [.wr (registerNumber .dec k) 1]) [.host]).unit .dec).status.busy = true := by
  decide

theorem witness_RegisterReadsReturnTheCurrentValue : ∀ k ∈ [0, 1, 2, 3], k ≤ 3 ∧
    (withProgram (idle 5 9 []) [.rd (registerNumber .dec k)]).nextTurn = .host ∧
    (withProgram (idle 5 9 []) [.rd (registerNumber .dec k)]).program = .rd (registerNumber .dec k) :: [] := by decide

theorem witness_BufferWriteChangesOneByte :
    (withProgram (idle 0 0 []) [.put .enc .output 15 7]).nextTurn = .host ∧
    (withProgram (idle 0 0 []) [.put .enc .output 15 7]).program = .put .enc .output 15 7 :: [] ∧
    15 < (withProgram (idle 0 0 []) [.put .enc .output 15 7]).bufBytes .enc .output ∧
    ((withProgram (idle 0 0 []) [.put .enc .output 15 7]).unit .enc).status.busy = false := by decide

/-- Both cases of the last hypothesis: an idle unit's `OUT`, and a busy unit's `IN`. -/
theorem witness_BufferReadReturnsTheByte :
    ((withProgram (idle 0 0 []) [.get .enc .output 0]).nextTurn = .host ∧
      0 < (withProgram (idle 0 0 []) [.get .enc .output 0]).bufBytes .enc .output ∧
      ((withProgram (idle 0 0 []) [.get .enc .output 0]).unit .enc).status.busy = false) ∧
    ((withSchedule (withProgram (busy 0 0 []) [.get .dec .input 15]) [.host]).nextTurn = .host ∧
      15 < (withSchedule (withProgram (busy 0 0 []) [.get .dec .input 15]) [.host]).bufBytes .dec .input) := by decide

theorem witness_BusyOutputReadIsFree :
    (withSchedule (withProgram (busy 0 0 []) [.get .dec .output 15]) [.host]).nextTurn = .host ∧
    (withSchedule (withProgram (busy 0 0 []) [.get .dec .output 15]) [.host]).program = .get .dec .output 15 :: [] ∧
    15 < (withSchedule (withProgram (busy 0 0 []) [.get .dec .output 15]) [.host]).outBytes .dec ∧
    ((withSchedule (withProgram (busy 0 0 []) [.get .dec .output 15]) [.host]).unit .dec).status.busy = true := by decide

/-- Each of the three clauses, at the boundary index 16 of a buffer of 16 bytes, and just below it. -/
theorem witness_HostBufferFaults :
    ((withProgram (idle 0 0 []) [.put .enc .input 16 1]).nextTurn = .host ∧
      (withProgram (idle 0 0 []) [.put .enc .input 16 1]).bufBytes .enc .input ≤ 16) ∧
    ((withProgram (idle 0 0 []) [.get .dec .output 16]).nextTurn = .host ∧
      (withProgram (idle 0 0 []) [.get .dec .output 16]).bufBytes .dec .output ≤ 16) ∧
    ((withSchedule (withProgram (busy 0 0 []) [.put .enc .input 15 1]) [.host]).nextTurn = .host ∧
      15 < (withSchedule (withProgram (busy 0 0 []) [.put .enc .input 15 1]) [.host]).bufBytes .enc .input ∧
      ((withSchedule (withProgram (busy 0 0 []) [.put .enc .input 15 1]) [.host]).unit .enc).status.busy = true) := by decide

theorem witness_WaitReadsStatusUntilDone : (withProgram (idle 0 0 []) [.wait .enc]).nextTurn = .host ∧
    (withProgram (idle 0 0 []) [.wait .enc]).program = .wait .enc :: [] := by decide

/-- Both clauses, with the smallest capacity that is enough. -/
theorem witness_EncoderEncodesTheLogicalInput :
    ((idle 4 8 [1, 2, 3, 4]).enc.cap ≤ (idle 4 8 [1, 2, 3, 4]).outBytes .enc ∧
      (idle 4 8 [1, 2, 3, 4]).enc.inLen ≤ (idle 4 8 [1, 2, 3, 4]).inBytes .enc ∧
      ((idle 4 8 [1, 2, 3, 4]).enc.inLen + 2) / 3 * 4 ≤ (idle 4 8 [1, 2, 3, 4]).enc.cap) ∧
    (idle 0 4 [9, 0]).enc.cap ≤ (idle 0 4 [9, 0]).outBytes .enc ∧ 1 < (idle 0 4 [9, 0]).inBytes .enc ∧
    (idle 0 4 [9, 0]).inByte .enc 1 = 0x00#8 ∧ (∀ a < 1, (idle 0 4 [9, 0]).inByte .enc a ≠ 0x00#8) ∧
    (1 + 2) / 3 * 4 ≤ (idle 0 4 [9, 0]).enc.cap := by decide

/-- Both modes, each with a capacity one byte short and with one that is just enough. -/
theorem witness_EncoderCapacityCheck :
    ((idle 4 7 [1, 2, 3, 4]).capacityFits .enc ∧ (idle 4 7 [1, 2, 3, 4]).resolves .enc .raw 4 ∧
      (idle 4 7 [1, 2, 3, 4]).enc.cap < (4 + 2) / 3 * 4) ∧
    ((idle 4 8 [1, 2, 3, 4]).capacityFits .enc ∧ (idle 4 8 [1, 2, 3, 4]).resolves .enc .raw 4 ∧
      (4 + 2) / 3 * 4 ≤ (idle 4 8 [1, 2, 3, 4]).enc.cap) ∧
    ((idle 0 3 [9, 0]).capacityFits .enc ∧ (idle 0 3 [9, 0]).resolves .enc .str 1 ∧
      (idle 0 3 [9, 0]).enc.cap < (1 + 2) / 3 * 4) ∧
    ((idle 0 4 [9, 0]).capacityFits .enc ∧ (idle 0 4 [9, 0]).resolves .enc .str 1 ∧
      (1 + 2) / 3 * 4 ≤ (idle 0 4 [9, 0]).enc.cap) := by
  simp only [State.resolves]; decide

/-- A successful encode of one byte: the hypotheses of the length, padding, legal-text and injectivity laws. -/
theorem witness_EncoderLengthAndPaddingLaws : ∃ t, exec (instrOf .enc .raw) (idle 1 4 [0x66]) = .next t ∧
    t.enc.status.code = 0#3 ∧ (idle 1 4 [0x66]).resolves .enc .raw 1 :=
  ⟨_, rfl, rfl, by simp only [State.resolves]; decide⟩

theorem witness_EncoderOutputIsLegalText : ∃ t, exec (instrOf .enc .str) (idle 0 4 [0x66, 0x00]) = .next t ∧
    t.enc.status.code = 0#3 ∧ (idle 0 4 [0x66, 0x00]).resolves .enc .str 1 ∧ 1 ≤ 1 :=
  ⟨_, rfl, rfl, by simp only [State.resolves]; decide, le_refl _⟩

theorem witness_EncoderIsInjective : ∃ t t', exec (instrOf .enc .raw) (idle 1 4 [0x66]) = .next t ∧
    t.enc.status.code = 0#3 ∧ (idle 1 4 [0x66]).resolves .enc .raw 1 ∧
    exec (instrOf .enc .str) (idle 0 4 [0x66, 0x00]) = .next t' ∧ t'.enc.status.code = 0#3 ∧
    (idle 0 4 [0x66, 0x00]).resolves .enc .str 1 ∧ t.enc.cap = t'.enc.cap ∧
    ∀ a < t.enc.cap, t.outByte .enc a = t'.outByte .enc a :=
  ⟨_, _, rfl, rfl, by simp only [State.resolves]; decide, rfl, rfl, by simp only [State.resolves]; decide, rfl, by decide⟩

/-- `Zg==`, in raw mode and in string mode. -/
def textOne : List Byte := [0x5A, 0x67, 0x3D, 0x3D, 0x00]

theorem textOne_legal (len cap : Nat) : LegalText ((idle len cap textOne).inByte .dec) 4 2 :=
  ⟨by decide, by decide, .inl ⟨rfl, rfl, rfl⟩, fun i hi => by
    have : i = 0 ∨ i = 1 := by omega
    rcases this with rfl | rfl
    · exact ⟨25#6, rfl⟩
    · exact ⟨32#6, rfl⟩⟩

/-- Both clauses. -/
theorem witness_DecoderDecodesTheLogicalInput :
    ((idle 4 1 textOne).dec.cap ≤ (idle 4 1 textOne).outBytes .dec ∧
      (idle 4 1 textOne).dec.inLen ≤ (idle 4 1 textOne).inBytes .dec ∧
      LegalText ((idle 4 1 textOne).inByte .dec) (idle 4 1 textOne).dec.inLen 2 ∧
      (idle 4 1 textOne).dec.inLen / 4 * 3 - 2 ≤ (idle 4 1 textOne).dec.cap) ∧
    ((idle 0 1 textOne).dec.cap ≤ (idle 0 1 textOne).outBytes .dec ∧ 4 < (idle 0 1 textOne).inBytes .dec ∧
      (idle 0 1 textOne).inByte .dec 4 = 0x00#8 ∧ (∀ a < 4, (idle 0 1 textOne).inByte .dec a ≠ 0x00#8) ∧
      LegalText ((idle 0 1 textOne).inByte .dec) 4 2 ∧ 4 / 4 * 3 - 2 ≤ (idle 0 1 textOne).dec.cap) :=
  ⟨⟨by decide, by decide, textOne_legal 4 1, by decide⟩, by decide, by decide, by decide, by decide, textOne_legal 0 1,
    by decide⟩

/-- Both clauses, at the two ends of the disjunction: no byte, and five bytes. -/
theorem witness_DecoderMalformedLength :
    ((idle 5 1 textOne).capacityFits .dec ∧ (idle 5 1 textOne).resolves .dec .raw 5 ∧ (5 = 0 ∨ 5 % 4 ≠ 0)) ∧
    ((idle 5 1 [0]).capacityFits .dec ∧ (idle 5 1 [0]).resolves .dec .str 0 ∧ (0 = 0 ∨ 0 % 4 ≠ 0)) :=
  ⟨⟨by decide, by simp only [State.resolves]; decide, by decide⟩, by decide, by simp only [State.resolves]; decide, by decide⟩

/-- Both clauses: `Zg=A` (no pad, the bad byte at 2), and `Z===` (two pads, the bad byte at the last index looked at). -/
theorem witness_DecoderInvalidCharacter :
    ((idle 4 9 [0x5A, 0x67, 0x3D, 0x41]).capacityFits .dec ∧ (idle 4 9 [0x5A, 0x67, 0x3D, 0x41]).resolves .dec .raw 4 ∧
      0 < 4 ∧ 4 % 4 = 0 ∧ PadsOf ((idle 4 9 [0x5A, 0x67, 0x3D, 0x41]).inByte .dec) 4 0 ∧ 2 < 4 - 0 ∧
      rev ((idle 4 9 [0x5A, 0x67, 0x3D, 0x41]).inByte .dec 2) = none) ∧
    ((idle 0 9 [0x5A, 0x3D, 0x3D, 0x3D, 0]).capacityFits .dec ∧
      (idle 0 9 [0x5A, 0x3D, 0x3D, 0x3D, 0]).resolves .dec .str 4 ∧
      PadsOf ((idle 0 9 [0x5A, 0x3D, 0x3D, 0x3D, 0]).inByte .dec) 4 2 ∧ 1 < 4 - 2 ∧
      rev ((idle 0 9 [0x5A, 0x3D, 0x3D, 0x3D, 0]).inByte .dec 1) = none) :=
  ⟨⟨by decide, by simp only [State.resolves]; decide, by decide, by decide, .inr (.inr ⟨rfl, by decide⟩), by decide, rfl⟩,
    by decide, by simp only [State.resolves]; decide, .inl ⟨rfl, rfl, rfl⟩, by decide, rfl⟩

/-- Both modes, each with a capacity one byte short and with one that is just enough. -/
theorem witness_DecoderCapacityCheck : ∀ len, (len = 4 ∨ len = 9) →
    ((idle len 0 textOne).capacityFits .dec ∧ LegalText ((idle len 0 textOne).inByte .dec) 4 2 ∧
      (len = 4 → (idle len 0 textOne).resolves .dec .raw 4) ∧ (len = 9 → (idle len 0 textOne).resolves .dec .str 4) ∧
      (idle len 0 textOne).dec.cap < 4 / 4 * 3 - 2) ∧
    ((idle len 1 textOne).capacityFits .dec ∧ LegalText ((idle len 1 textOne).inByte .dec) 4 2 ∧
      (len = 4 → (idle len 1 textOne).resolves .dec .raw 4) ∧ (len = 9 → (idle len 1 textOne).resolves .dec .str 4) ∧
      4 / 4 * 3 - 2 ≤ (idle len 1 textOne).dec.cap) := by
  rintro len (rfl | rfl)
  · exact ⟨⟨by decide, textOne_legal 4 0, fun _ => by simp only [State.resolves]; decide, by decide, by decide⟩,
      by decide, textOne_legal 4 1, fun _ => by simp only [State.resolves]; decide, by decide, by decide⟩
  · exact ⟨⟨by decide, textOne_legal 9 0, by decide, fun _ => by simp only [State.resolves]; decide, by decide⟩,
      by decide, textOne_legal 9 1, by decide, fun _ => by simp only [State.resolves]; decide, by decide⟩

/-- A successful decode with two pads. -/
theorem witness_DecoderSizeLaw : ∃ t, exec (instrOf .dec .raw) (idle 4 1 textOne) = .next t ∧ t.dec.status.code = 0#3 ∧
    (idle 4 1 textOne).resolves .dec .raw 4 ∧ PadsOf ((idle 4 1 textOne).inByte .dec) 4 2 :=
  ⟨_, rfl, rfl, by simp only [State.resolves]; decide, .inl ⟨rfl, rfl, rfl⟩⟩

/-- `Zh==`, which differs from `Zg==` in the discarded bits only (DD22). -/
def textOneOther : List Byte := [0x5A, 0x68, 0x3D, 0x3D, 0x00]

theorem textOneOther_legal : LegalText ((idle 4 1 textOneOther).inByte .dec) 4 2 :=
  ⟨by decide, by decide, .inl ⟨rfl, rfl, rfl⟩, fun i hi => by
    have : i = 0 ∨ i = 1 := by omega
    rcases this with rfl | rfl
    · exact ⟨25#6, rfl⟩
    · exact ⟨33#6, rfl⟩⟩

theorem witness_DiscardedBitsAreNotChecked :
    (idle 4 1 textOneOther).params = (idle 4 1 textOne).params ∧ (idle 4 1 textOne).capacityFits .dec ∧
    (idle 4 1 textOneOther).dec.cap = (idle 4 1 textOne).dec.cap ∧ (idle 4 1 textOne).resolves .dec .raw 4 ∧
    (idle 4 1 textOneOther).resolves .dec .raw 4 ∧ LegalText ((idle 4 1 textOne).inByte .dec) 4 2 ∧
    LegalText ((idle 4 1 textOneOther).inByte .dec) 4 2 ∧ 4 / 4 * 3 - 2 ≤ (idle 4 1 textOne).dec.cap ∧ 1 ≤ 2 ∧
    (∀ i < 4, i ≠ 4 - 4 + (3 - 2) → (idle 4 1 textOneOther).inByte .dec i = (idle 4 1 textOne).inByte .dec i) ∧
    (∀ v v' : Sextet, rev ((idle 4 1 textOne).inByte .dec (4 - 4 + (3 - 2))) = some v →
      rev ((idle 4 1 textOneOther).inByte .dec (4 - 4 + (3 - 2))) = some v' →
      (2 = 2 → v.extractLsb' 4 2 = v'.extractLsb' 4 2) ∧ (2 = 1 → v.extractLsb' 2 4 = v'.extractLsb' 2 4)) := by
  refine ⟨rfl, by decide, rfl, by simp only [State.resolves]; decide, by simp only [State.resolves]; decide,
    textOne_legal 4 1, textOneOther_legal, by decide, by decide, by decide, fun v v' hv hv' => ?_⟩
  have e : v = 32#6 := Option.some.inj (hv.symm.trans rfl)
  have e' : v' = 33#6 := Option.some.inj (hv'.symm.trans rfl)
  subst e; subst e'
  exact ⟨fun _ => by decide, fun h => absurd h (by decide)⟩

/-- `f` encoded in raw mode, its text decoded in string mode. -/
theorem witness_EncodeThenDecodeGivesTheBytesBack : ∃ t, exec (instrOf .enc .raw) (idle 1 4 [0x66]) = .next t ∧
    t.enc.status.code = 0#3 ∧ (idle 1 4 [0x66]).resolves .enc .raw 1 ∧ 1 ≤ 1 ∧ (idle 0 1 textOne).capacityFits .dec ∧
    (idle 0 1 textOne).resolves .dec .str t.enc.cap ∧ 1 ≤ (idle 0 1 textOne).dec.cap ∧
    ∀ a < t.enc.cap, (idle 0 1 textOne).inByte .dec a = t.outByte .enc a :=
  ⟨_, rfl, rfl, by simp only [State.resolves]; decide, by decide, by decide, ⟨by decide, by decide, by decide⟩, by decide,
    by decide⟩

theorem witness_EmptyDataDoesNotRoundTrip :
    ((idle 0 0 []).capacityFits .enc ∧ (idle 0 0 []).resolves .enc .raw 0) ∧
    ((idle 9 0 [0]).capacityFits .dec ∧ (idle 9 0 [0]).resolves .dec .str 0) :=
  ⟨⟨by decide, by simp only [State.resolves]; decide⟩, by decide, by simp only [State.resolves]; decide⟩

theorem witness_DecodeThenEncodeGivesCanonicalTextBack : ∃ t, exec (instrOf .dec .raw) (idle 4 1 textOne) = .next t ∧
    t.dec.status.code = 0#3 ∧ (idle 4 1 textOne).resolves .dec .raw 4 ∧ PadsOf ((idle 4 1 textOne).inByte .dec) 4 2 ∧
    (idle 0 4 [0x66, 0]).capacityFits .enc ∧ (idle 0 4 [0x66, 0]).resolves .enc .str t.dec.cap ∧
    4 ≤ (idle 0 4 [0x66, 0]).enc.cap ∧ ∀ a < t.dec.cap, (idle 0 4 [0x66, 0]).inByte .enc a = t.outByte .dec a :=
  ⟨_, rfl, rfl, by simp only [State.resolves]; decide, .inl ⟨rfl, rfl, rfl⟩, by decide, ⟨by decide, by decide, by decide⟩,
    by decide, by decide⟩

/-- Each clause at its boundary: capacity 17 and 16 of 16, length 17 and 16 of 16, no zero byte and a last zero byte. -/
theorem witness_CommandsRefuseExactlyTheirPreconditions :
    (idle 0 17 []).outBytes .enc < ((idle 0 17 []).unit .enc).cap ∧
    (((idle 17 16 []).unit .dec).cap ≤ (idle 17 16 []).outBytes .dec ∧
      (idle 17 16 []).inBytes .dec < ((idle 17 16 []).unit .dec).inLen) ∧
    (((idle 0 16 (List.replicate 16 1)).unit .enc).cap ≤ (idle 0 16 (List.replicate 16 1)).outBytes .enc ∧
      ∀ a < (idle 0 16 (List.replicate 16 1)).inBytes .enc, (idle 0 16 (List.replicate 16 1)).inByte .enc a ≠ 0x00#8) ∧
    (((idle 16 16 []).unit .dec).cap ≤ (idle 16 16 []).outBytes .dec ∧
      ((idle 16 16 []).unit .dec).inLen ≤ (idle 16 16 []).inBytes .dec) ∧
    (((idle 0 16 (List.replicate 15 1 ++ [0])).unit .dec).cap ≤ (idle 0 16 (List.replicate 15 1 ++ [0])).outBytes .dec ∧
      ∃ a < (idle 0 16 (List.replicate 15 1 ++ [0])).inBytes .dec,
        (idle 0 16 (List.replicate 15 1 ++ [0])).inByte .dec a = 0x00#8) := by
  decide

/-- One state for each status, in the order of R152. -/
theorem witness_OneStatusByTheFixedOrder :
    (∃ t, exec (instrOf .enc .raw) (idle 1 3 [0x66]) = .next t ∧ (idle 1 3 [0x66]).resolves .enc .raw 1 ∧
      (idle 1 3 [0x66]).enc.cap < (1 + 2) / 3 * 4) ∧
    (∃ t, exec (instrOf .enc .raw) (idle 1 4 [0x66]) = .next t ∧ (idle 1 4 [0x66]).resolves .enc .raw 1 ∧
      ¬ (idle 1 4 [0x66]).enc.cap < (1 + 2) / 3 * 4) ∧
    (∃ t, exec (instrOf .dec .raw) (idle 5 0 textOne) = .next t ∧ (idle 5 0 textOne).resolves .dec .raw 5 ∧
      PadsOf ((idle 5 0 textOne).inByte .dec) 5 0 ∧ (5 = 0 ∨ 5 % 4 ≠ 0)) ∧
    (∃ t, exec (instrOf .dec .raw) (idle 4 0 [0x21, 0x67, 0x3D, 0x3D]) = .next t ∧
      (idle 4 0 [0x21, 0x67, 0x3D, 0x3D]).resolves .dec .raw 4 ∧
      PadsOf ((idle 4 0 [0x21, 0x67, 0x3D, 0x3D]).inByte .dec) 4 2 ∧ ¬ (4 = 0 ∨ 4 % 4 ≠ 0) ∧
      ∃ i < 4 - 2, rev ((idle 4 0 [0x21, 0x67, 0x3D, 0x3D]).inByte .dec i) = none) ∧
    (∃ t, exec (instrOf .dec .raw) (idle 4 0 textOne) = .next t ∧ (idle 4 0 textOne).resolves .dec .raw 4 ∧
      PadsOf ((idle 4 0 textOne).inByte .dec) 4 2 ∧ ¬ (4 = 0 ∨ 4 % 4 ≠ 0) ∧
      ¬ (∃ i < 4 - 2, rev ((idle 4 0 textOne).inByte .dec i) = none) ∧ (idle 4 0 textOne).dec.cap < 4 / 4 * 3 - 2) ∧
    (∃ t, exec (instrOf .dec .raw) (idle 4 1 textOne) = .next t ∧ (idle 4 1 textOne).resolves .dec .raw 4 ∧
      PadsOf ((idle 4 1 textOne).inByte .dec) 4 2 ∧ ¬ (4 = 0 ∨ 4 % 4 ≠ 0) ∧
      ¬ (∃ i < 4 - 2, rev ((idle 4 1 textOne).inByte .dec i) = none) ∧ ¬ (idle 4 1 textOne).dec.cap < 4 / 4 * 3 - 2) := by
  refine ⟨⟨_, rfl, ?_, by decide⟩, ⟨_, rfl, ?_, by decide⟩, ⟨_, rfl, ?_, .inr (.inr ⟨rfl, by decide⟩), by decide⟩,
    ⟨_, rfl, ?_, .inl ⟨rfl, rfl, rfl⟩, by decide, by decide⟩, ⟨_, rfl, ?_, .inl ⟨rfl, rfl, rfl⟩, by decide, by decide, by decide⟩,
    ⟨_, rfl, ?_, .inl ⟨rfl, rfl, rfl⟩, by decide, by decide, by decide⟩⟩ <;> (simp only [State.resolves]; decide)

/-- Both units busy; the operation of each with a result and with a refusal. -/
theorem witness_CompletionAppliesTheOperation :
    (∃ r, (busy 0 0 []).nextTurn = .unit .enc ∧ (busy 0 0 []).enc.status.busy = true ∧
      encodeOp ((busy 0 0 []).outBytes .enc) ((busy 0 0 []).inBytes .enc) (busy 0 0 []).enc.mode (busy 0 0 []).enc.inLen
        ((busy 0 0 []).inByte .enc) (busy 0 0 []).enc.cap = .ok r) ∧
    (∃ r, (withSchedule (busy 0 0 []) [.unit .dec]).nextTurn = .unit .dec ∧ (busy 0 0 []).dec.status.busy = true ∧
      decodeOp ((busy 0 0 []).outBytes .dec) ((busy 0 0 []).inBytes .dec) (busy 0 0 []).dec.mode (busy 0 0 []).dec.inLen
        ((busy 0 0 []).inByte .dec) (busy 0 0 []).dec.cap = .ok r) ∧
    (∃ e, (busy 17 0 []).nextTurn = .unit .enc ∧ (busy 17 0 []).enc.status.busy = true ∧
      encodeOp ((busy 17 0 []).outBytes .enc) ((busy 17 0 []).inBytes .enc) (busy 17 0 []).enc.mode (busy 17 0 []).enc.inLen
        ((busy 17 0 []).inByte .enc) (busy 17 0 []).enc.cap = .error e) ∧
    (∃ e, (withSchedule (busy 0 17 []) [.unit .dec]).nextTurn = .unit .dec ∧ (busy 0 17 []).dec.status.busy = true ∧
      decodeOp ((busy 0 17 []).outBytes .dec) ((busy 0 17 []).inBytes .dec) (busy 0 17 []).dec.mode (busy 0 17 []).dec.inLen
        ((busy 0 17 []).inByte .dec) (busy 0 17 []).dec.cap = .error e) :=
  ⟨⟨_, rfl, rfl, rfl⟩, ⟨_, rfl, rfl, rfl⟩, ⟨_, rfl, rfl, rfl⟩, ⟨_, rfl, rfl, rfl⟩⟩

/-- A success with a byte beyond the result, and a failure. -/
theorem witness_WriteFootprint :
    (∃ r, encodeOp 16 16 .raw 1 (fun _ => 0x66) 4 = .ok r ∧ r.status = .success) ∧
    (∃ r, decodeOp 16 16 .raw 1 (fun _ => 0x66) 4 = .ok r ∧ r.status ≠ .success) ∧
    (∃ t, exec .encRaw (idle 1 4 [0x66]) = .next t ∧ (t.unit .enc).cap ≤ 4) ∧
    (∃ t, exec .encRaw (idle 1 3 [0x66]) = .next t ∧ (t.unit .enc).status.code ≠ 0#3) :=
  ⟨⟨_, rfl, rfl⟩, ⟨_, rfl, by decide⟩, ⟨_, rfl, by decide⟩, ⟨_, rfl, by decide⟩⟩

/-- A failed command: the hypotheses of the statements about failures. -/
theorem witness_FailedCommandChangesOnlyStatus : ∃ t, exec .decStr (idle 0 0 textOne) = .next t ∧
    (t.unit Instr.decStr.unit).status.code ≠ 0#3 := ⟨_, rfl, by decide⟩

theorem witness_RetryGivesTheSameStatus : ∃ t, exec .decRaw (idle 3 9 textOne) = .next t ∧
    (t.unit Instr.decRaw.unit).status.code ≠ 0#3 := ⟨_, rfl, by decide⟩

theorem witness_CommandsTouchOnlyTheirUnit : ∃ t, exec .encStr (idle 0 4 [0x66, 0]) = .next t := ⟨_, rfl⟩

/-- Two states that agree on the operands in string mode and differ in `IN_LEN` and beyond the terminator. -/
theorem witness_ResultDependsOnlyOnTheFootprint :
    (idle 9 4 [0x66, 0, 5]).params = (idle 0 4 [0x66, 0]).params ∧ (idle 0 4 [0x66, 0]).capacityFits .enc ∧
    ((idle 9 4 [0x66, 0, 5]).unit .enc).cap = ((idle 0 4 [0x66, 0]).unit .enc).cap ∧
    (idle 0 4 [0x66, 0]).resolves .enc .str 1 ∧ (idle 9 4 [0x66, 0, 5]).resolves .enc .str 1 ∧
    (∀ a < 1, (idle 9 4 [0x66, 0, 5]).inByte .enc a = (idle 0 4 [0x66, 0]).inByte .enc a) ∧
    ∀ a, (idle 9 4 [0x66, 0, 5]).outByte .enc a = (idle 0 4 [0x66, 0]).outByte .enc a :=
  ⟨rfl, by decide, rfl, by simp only [State.resolves]; decide, by simp only [State.resolves]; decide, by decide,
    fun _ => rfl⟩

/-- Both clauses, with the terminator at the last index of the buffer. -/
theorem witness_ModesAgreeWhereBothApply :
    (15 < (idle 0 16 (List.replicate 15 1 ++ [0])).inBytes .dec ∧
      (idle 0 16 (List.replicate 15 1 ++ [0])).inByte .dec 15 = 0x00#8 ∧
      (∀ a < 15, (idle 0 16 (List.replicate 15 1 ++ [0])).inByte .dec a ≠ 0x00#8) ∧
      (idle 0 16 (List.replicate 15 1 ++ [0])).capacityFits .dec) ∧
    (0 < (idle 0 17 [0]).inBytes .enc ∧ (idle 0 17 [0]).inByte .enc 0 = 0x00#8 ∧
      (∀ a < 0, (idle 0 17 [0]).inByte .enc a ≠ 0x00#8) ∧ ¬ (idle 0 17 [0]).capacityFits .enc) := by
  decide

theorem witness_StartThenCompletionIsTheCommand : ((idle 0 0 []).unit .enc).status.busy = false := rfl

/-- A host write that a busy unit ignores, as a step. -/
theorem witness_OperandsAreHeldWhileBusy : ∃ t,
    step (withSchedule (withProgram (busy 3 4 []) [.wr 1#3 7]) [.host]) = .next t ∧
    ((withSchedule (withProgram (busy 3 4 []) [.wr 1#3 7]) [.host]).unit .enc).status.busy = true ∧
    (withSchedule (withProgram (busy 3 4 []) [.wr 1#3 7]) [.host]).nextTurn ≠ .unit .enc ∧
    (withSchedule (withProgram (busy 3 4 []) [.wr 1#3 7]) [.host]).nextTurn ≠ .reset := ⟨_, rfl, rfl, by decide, by decide⟩

theorem witness_OnlyACommandWriteStartsAUnit : ∃ t, step (withProgram (idle 0 0 []) [.wr 4#3 1]) = .next t ∧
    ((withProgram (idle 0 0 []) [.wr 4#3 1]).unit .dec).status.busy = false ∧ (t.unit .dec).status.busy = true :=
  ⟨_, rfl, rfl, rfl⟩

theorem witness_OnlyACompletionSetsDone : ∃ t, step (busy 0 0 []) = .next t ∧
    ((busy 0 0 []).unit .enc).status.done = false ∧ (t.unit .enc).status.done = true := ⟨_, rfl, rfl, rfl⟩

/-- Both sides of the statement that the units commute are met by one pair of started operations. -/
theorem witness_TheTwoUnitsCommute : ∃ w t, step (withSchedule (busy 0 0 []) [.unit .enc, .unit .dec]) = .next w ∧
    step w = .next t := ⟨_, _, rfl, rfl⟩

/-- A well-formed state in which a step goes on. -/
theorem witness_EveryStepKeepsTheStateWellFormed : ∃ t, (busy 1 4 [0x66]).wf ∧ step (busy 1 4 [0x66]) = .next t :=
  ⟨_, by decide, rfl⟩

theorem witness_ParametersAreFixed : ∃ t, step (idle 0 0 []) = .next t ∧ (idle 0 0 []).nextTurn ≠ .reset :=
  ⟨_, rfl, by decide⟩

end Sys2Proof.Tests
end

namespace Sys2Proof.Machine

/-! ### The values after reset, and the start step -/

@[simp] theorem unit_reset (u : UnitId) : State.reset.unit u = .reset := by cases u <;> rfl

/-- No byte of a buffer is listed right after reset. -/
@[simp] theorem reset_buf (b : Buf) : UnitState.reset.buf b = [] := by cases b <;> rfl

/-- A byte that nothing has written since the last reset is the free value of the launch (R34). -/
theorem byteAt_of_buf_nil {s : State} {u : UnitId} {b : Buf} (h : (s.unit u).buf b = []) (a : Nat) :
    s.byteAt u b a = Config.launchByte s.launch u b a := by
  rw [State.byteAt, h]; rfl

/-- Settles O7: both units start in `UnitState.reset`, whose buffers list no byte. -/
theorem resetValuesOfEveryState : Obligations.ResetValuesOfEveryState := by
  intro u
  have hbytes : ∀ (b : Buf) (a : Nat), State.reset.byteAt u b a = Config.launchByte State.reset.launch u b a :=
    fun _ => byteAt_of_buf_nil (by simp)
  rw [unit_reset]
  exact ⟨rfl, rfl, rfl, rfl, rfl, rfl, hbytes⟩

/-- A unit does not see the host's program or the schedule. -/
@[simp] theorem unit_withProgramSchedule (s : State) (u : UnitId) (program : List HostAction) (schedule : List Turn) :
    { s with program := program, schedule := schedule }.unit u = s.unit u := by cases u <;> rfl

/-- A write to `U.CMD` of an idle unit is its start step, in the mode of bit 0 of the value (R28). -/
theorem writeRegister_cmd_idle {s : State} {u : UnitId} (v : Nat) (h : (s.unit u).status.busy = false) :
    s.writeRegister (registerNumber u 0) v =
      s.setUnit u ((s.unit u).start (if v % 2 = 0 then .raw else .str)) := by
  obtain ⟨hcmd, -⟩ := registerNumber_eq u
  rw [hcmd, writeRegister_idle v (by simpa using h), registerUnit_cmd, registerIndex_cmd, ← modeOfBit_ofNat]
  rfl

/-- Settles O11: the step performs the write, the write is the start step, and the unit's command word decodes to the
command of its new mode. -/
theorem commandWriteStartsTheUnit : Obligations.CommandWriteStartsTheUnit := by
  intro s u v rest hturn hprogram hidle
  refine ⟨_, ?_, rfl, ?_⟩
  · rw [step_hostAction hturn hprogram, hostPerform, writeRegister_cmd_idle v (by simpa using hidle),
      unit_withProgramSchedule]
    rfl
  · rw [decodeCommand_fetchWord, setUnit_unit]

end Sys2Proof.Machine

namespace Sys2Proof.Machine

/-! ### The write footprint of an operation (R49) -/

/-- The write footprint R49 allows a result: a success writes each of `0 .. c-1` once, in order, with `c` within the
capacity offered and that within `OUT_BYTES`; any other status writes nothing. -/
def OpResult.KeepsFootprint (r : OpResult) (cap outBytes : Nat) : Prop :=
  (r.status = .success → r.writes.map Prod.fst = List.range r.cap ∧ r.cap ≤ cap ∧ cap ≤ outBytes) ∧
    (r.status ≠ .success → r.writes = [])

theorem raise_keepsFootprint {k : StatusKind} (hk : k ≠ .success) (cap outBytes : Nat) :
    (raise k cap).KeepsFootprint cap outBytes :=
  ⟨fun hs => absurd hs hk, fun _ => rfl⟩

theorem success_keepsFootprint {c cap outBytes : Nat} {ws : List Host.Cell} (hw : ws.map Prod.fst = List.range c)
    (hc : c ≤ cap) (ho : cap ≤ outBytes) : (OpResult.mk .success c ws).KeepsFootprint cap outBytes :=
  ⟨fun _ => ⟨hw, hc, ho⟩, fun hs => absurd rfl hs⟩

section
variable {outBytes inBytes len cap : Nat} {m : Mode} {input : Nat → Byte} {r : OpResult}

theorem encodeOp_keepsFootprint (h : encodeOp outBytes inBytes m len input cap = .ok r) :
    r.KeepsFootprint cap outBytes := by
  obtain ⟨ho, n, -, ⟨-, rfl⟩ | ⟨hc, rfl⟩⟩ := encodeOp_cases h
  · exact raise_keepsFootprint (by decide) _ _
  · exact success_keepsFootprint (encodeWrites_indices input n) hc ho

theorem decodeOp_keepsFootprint (h : decodeOp outBytes inBytes m len input cap = .ok r) :
    r.KeepsFootprint cap outBytes := by
  obtain ⟨ho, n, -, ⟨-, rfl⟩ | ⟨-, -, rfl⟩ | ⟨p, ht, ⟨-, rfl⟩ | ⟨hc, rfl⟩⟩⟩ := decodeOp_cases h
  · exact raise_keepsFootprint (by decide) _ _
  · exact raise_keepsFootprint (by decide) _ _
  · exact raise_keepsFootprint (by decide) _ _
  · obtain ⟨hn, rfl, -⟩ := legalText_iff.1 ht
    exact success_keepsFootprint (decodeWrites_indices input hn (padCount_le input n)) hc ho

end

/-- A failing operation, or one whose capacity result is at most `a`, does not write index `a`. -/
theorem operate_not_mem_writes {s : State} {u : UnitId} {m : Mode} {r : OpResult} (h : s.operate u m = .ok r) {a : Nat}
    (ha : r.status ≠ .success ∨ r.cap ≤ a) : a ∉ r.writes.map Prod.fst := by
  intro hmem
  obtain ⟨c, hc, rfl⟩ := List.mem_map.1 hmem
  rcases ha with hs | hle
  · obtain ⟨-, -, -, hfail, -⟩ := operate_ok h
    rw [hfail hs] at hc
    exact absurd hc List.not_mem_nil
  · exact absurd (operate_write_lt h hc) (Nat.not_lt.2 hle)

/-- Settles O37: the indices written are those of the success case of the operation, and an index that the command does
not write keeps its byte. -/
theorem writeFootprint : Obligations.WriteFootprint := by
  refine ⟨fun _ _ _ _ _ _ _ h => h.elim encodeOp_keepsFootprint decodeOp_keepsFootprint, fun i s t ht a ha => ?_⟩
  obtain ⟨r, hr, rfl⟩ := exec_next_iff.1 ht
  refine (outByte_complete hr i.mode).2 a (operate_not_mem_writes hr ?_)
  rw [setUnit_unit] at ha
  exact ha.imp_left fun hcode hs => hcode (by simp [hs, statusCode])

/-! ### When a command is refused and when it completes (R44, R143, R29) -/

/-- `refuse(P_CAP)` of either unit (R44). -/
theorem operate_capacityBeyondBuffer {s : State} {u : UnitId} (m : Mode) (h : s.outBytes u < (s.unit u).cap) :
    s.operate u m = .error (.capacityBeyondBuffer u) := by
  cases u with
  | enc => exact encodeOp_capacityBeyondBuffer h
  | dec => exact decodeOp_capacityBeyondBuffer h

/-- With `P_CAP` met, an operation refuses as `ResolveLen` does (R143). -/
theorem operate_of_resolveLen_error {s : State} {u : UnitId} {m : Mode} {e : Refusal} (hc : s.capacityFits u)
    (he : resolveLen u (s.inBytes u) m (s.unit u).inLen (s.inByte u) = .error e) : s.operate u m = .error e := by
  cases u with
  | enc => exact encodeOp_of_error hc he
  | dec => exact decodeOp_of_error hc he

/-- A zero byte in `IN` gives string mode a logical length (R140). -/
theorem State.resolves_str_of_hasTerminator {s : State} {u : UnitId} (h : s.hasTerminator u) :
    ∃ n, s.resolves u .str n := by
  cases hr : resolveLen u (s.inBytes u) .str (s.unit u).inLen (s.inByte u) with
  | ok n => exact ⟨n, resolveLen_eq_ok.1 hr⟩
  | error e =>
    obtain ⟨hm, -, -⟩ | ⟨-, hno, -⟩ := resolveLen_eq_error.1 hr
    · cases hm
    · exact absurd h hno

/-- A command completes as soon as its unit's operation answers a result. -/
theorem exec_next_of_operate {i : Instr} {s : State} {r : OpResult} (h : s.operate i.unit i.mode = .ok r) :
    exec i s = .next (s.setUnit i.unit (((s.unit i.unit).start i.mode).complete r)) :=
  exec_next_iff.2 ⟨r, h, rfl⟩

theorem exec_instrOf_refused {u : UnitId} {m : Mode} {s : State} {e : Refusal} (h : s.operate u m = .error e) :
    exec (instrOf u m) s = .refused e :=
  exec_refused_iff.2 (by rw [instrOf_unit, instrOf_mode]; exact h)

/-- A command whose capacity fits and whose length resolves completes (R29). -/
theorem exec_instrOf_completes {u : UnitId} {m : Mode} {s : State} {n : Nat} (hc : s.capacityFits u)
    (hn : s.resolves u m n) : ∃ t, exec (instrOf u m) s = .next t := by
  obtain ⟨r, hr⟩ := operate_total hc hn
  exact ⟨_, exec_next_of_operate (by rw [instrOf_unit, instrOf_mode]; exact hr)⟩

/-- Settles O34: the operation refuses for the capacity first, then as `ResolveLen` does, and is total otherwise. -/
theorem commandsRefuseExactlyTheirPreconditions : Obligations.CommandsRefuseExactlyTheirPreconditions := by
  refine fun u s => ⟨fun m hcap => ?_, fun hc hlen => ?_, fun hc hzero => ?_, fun hc hlen => ?_, fun hc hterm => ?_⟩
  · exact exec_instrOf_refused (operate_capacityBeyondBuffer m hcap)
  · have hraw := resolveLen_eq_error.2 (.inl ⟨rfl, hlen, rfl⟩)
    exact exec_instrOf_refused (operate_of_resolveLen_error hc hraw)
  · have hno : ¬ s.hasTerminator u := fun ⟨a, ha, hz⟩ => hzero a ha hz
    have hstr := resolveLen_eq_error.2 (.inr ⟨rfl, hno, rfl⟩)
    exact exec_instrOf_refused (operate_of_resolveLen_error hc hstr)
  · exact exec_instrOf_completes hc (m := .raw) ⟨rfl, hlen⟩
  · obtain ⟨n, hn⟩ := State.resolves_str_of_hasTerminator hterm
    exact exec_instrOf_completes hc hn

/-! ### The read footprint of a command (R33, R48) -/

/-- An operation's result depends only on the buffer sizes, the capacity and the logical input (R48). -/
theorem operate_congr {s s' : State} {u : UnitId} {m m' : Mode} {n : Nat} (hp : s'.params = s.params)
    (hcap : (s'.unit u).cap = (s.unit u).cap) (hn : s.resolves u m n) (hn' : s'.resolves u m' n)
    (hin : ∀ a < n, s'.inByte u a = s.inByte u a) : s'.operate u m' = s.operate u m := by
  have hout : s'.outBytes u = s.outBytes u := by rw [State.outBytes, State.outBytes, hp]
  rw [State.operate, State.operate, hout, hcap]
  exact operationOf_congr hin (resolveLen_eq_ok.2 hn') (resolveLen_eq_ok.2 hn)

/-- Settles O41: both operations answer the same result, which decides the status and `CAP` and, with the prior bytes,
`OUT`. -/
theorem resultDependsOnlyOnTheFootprint : Obligations.ResultDependsOnlyOnTheFootprint := by
  intro i s s' n hp hc hcap hn hn' hin hout
  obtain ⟨r, hr⟩ := operate_total hc hn
  have hr' : s'.operate i.unit i.mode = .ok r := (operate_congr hp hcap hn hn' hin).trans hr
  refine ⟨_, _, exec_next_of_operate hr, exec_next_of_operate hr', ?_, ?_, fun a => ?_⟩
  · simp
  · simp
  · exact outByte_complete_congr hr hr' (hout a)

end Sys2Proof.Machine

namespace Sys2Proof.Machine

/-! ### The status codes and the commands that produce them (R62) -/

/-- The code a completed command leaves is that of the result its unit's operation answered (R29). -/
theorem exec_instrOf_code {u : UnitId} {m : Mode} {s t : State} (h : exec (instrOf u m) s = .next t) :
    ∃ r, s.operate u m = .ok r ∧ (t.unit u).status.code = statusCode r.status := by
  obtain ⟨r, hr, rfl⟩ := exec_next_iff.1 h
  rw [instrOf_unit, instrOf_mode] at hr
  exact ⟨r, hr, by simp⟩

/-- `Encode` has one check only, the one of the capacity (R93). -/
theorem encodeOp_status {outBytes inBytes len cap : Nat} {m : Mode} {input : Nat → Byte} {r : OpResult}
    (h : encodeOp outBytes inBytes m len input cap = .ok r) :
    r.status = .success ∨ r.status = .insufficientBufferCapacity := by
  obtain ⟨-, n, -, ⟨-, rfl⟩ | ⟨-, rfl⟩⟩ := encodeOp_cases h
  · exact .inr rfl
  · exact .inl rfl

theorem exec_enc_code_le {m : Mode} {s t : State} (h : exec (instrOf .enc m) s = .next t) :
    t.enc.status.code.toNat ≤ 1 := by
  obtain ⟨r, hr, hcode⟩ := exec_instrOf_code h
  rw [unit_enc] at hcode
  obtain hk | hk := encodeOp_status hr <;> rw [hcode, hk] <;> decide

theorem exec_dec_code_le {m : Mode} {s t : State} (h : exec (instrOf .dec m) s = .next t) :
    t.dec.status.code.toNat ≤ 3 := by
  obtain ⟨r, hr, hcode⟩ := exec_instrOf_code h
  obtain ⟨-, -, hk, -⟩ := operate_ok hr
  rw [unit_dec] at hcode
  rw [hcode]
  exact statusCode_le hk

/-- Both units idle over buffers of 8 bytes, each offered `cap` bytes of capacity and the input `text`. `IN_LEN` is the
length of the text and a zero byte follows it, so that a text without zero bytes is the logical input in either mode. -/
def offering (cap : Nat) (text : List Byte) : State :=
  let cells : Memory := (text ++ [0#8]).zipIdx.map Prod.swap
  let x : UnitState := ⟨.raw, text.length, cap, ⟨0#3, false, false⟩, cells, []⟩
  ⟨⟨8, 8, 8, 8, 8⟩, x, x, 0, 0, [], [], []⟩

/-- One byte, `f`, needs a capacity of 4: it is encoded with 4 and not with 3. -/
theorem enc_produces_code (m : Mode) {c : BitVec 3} (hc : c.toNat ≤ 1) :
    ∃ s t, exec (instrOf .enc m) s = .next t ∧ t.enc.status.code = c := by
  have hcodes : c = 0#3 ∨ c = 1#3 := by revert c; decide
  obtain rfl | rfl := hcodes
  · exact ⟨offering 4 [0x66], by cases m <;> exact ⟨_, rfl, rfl⟩⟩
  · exact ⟨offering 3 [0x66], by cases m <;> exact ⟨_, rfl, rfl⟩⟩

/-- The text `Zg==` needs a capacity of 1: it is decoded with 1 and not with 0. The empty text has a malformed length, and
`!g==` begins with a byte that is no symbol. -/
theorem dec_produces_code (m : Mode) {c : BitVec 3} (hc : c.toNat ≤ 3) :
    ∃ s t, exec (instrOf .dec m) s = .next t ∧ t.dec.status.code = c := by
  have hcodes : c = 0#3 ∨ c = 1#3 ∨ c = 2#3 ∨ c = 3#3 := by revert c; decide
  obtain rfl | rfl | rfl | rfl := hcodes
  · exact ⟨offering 1 [0x5A, 0x67, 0x3D, 0x3D], by cases m <;> exact ⟨_, rfl, rfl⟩⟩
  · exact ⟨offering 0 [0x5A, 0x67, 0x3D, 0x3D], by cases m <;> exact ⟨_, rfl, rfl⟩⟩
  · exact ⟨offering 1 [], by cases m <;> exact ⟨_, rfl, rfl⟩⟩
  · exact ⟨offering 1 [0x21, 0x67, 0x3D, 0x3D], by cases m <;> exact ⟨_, rfl, rfl⟩⟩

/-- Settles O6: the bounds hold of every result the two operations answer, and the codes below them are each produced by
running the command. -/
theorem statusCodesAndTheirProducers : Obligations.StatusCodesAndTheirProducers :=
  ⟨⟨rfl, rfl, rfl, rfl, rfl⟩, fun _ _ _ => exec_enc_code_le, fun _ _ _ => exec_dec_code_le,
    fun m _ => enc_produces_code m, fun m _ => dec_produces_code m⟩

/-! ### The alphabet table and its reverse (R66, R68, R69) -/

/-- The byte value of a symbol in each of the five ranges of R66. -/
theorem alpha_toNat (v : Sextet) : (alpha v).toNat =
    if v.toNat ≤ 25 then 0x41 + v.toNat
    else if v.toNat ≤ 51 then 0x61 + (v.toNat - 26)
    else if v.toNat ≤ 61 then 0x30 + (v.toNat - 52)
    else if v.toNat = 62 then 0x2B
    else 0x2F := by
  unfold alpha
  split_ifs <;> simp <;> omega

/-- `REV` takes back the symbol of each of the 64 sextets. -/
@[simp] theorem rev_alpha (v : Sextet) : rev (alpha v) = some v := by
  revert v; decide

/-- No two sextets share a symbol: `REV` is a left inverse. -/
theorem alpha_injective : Function.Injective alpha := fun v w h =>
  Option.some.inj (by rw [← rev_alpha v, h, rev_alpha])

/-- Each valid range of R68 is a range of R66, shifted by the same amount the other way. -/
theorem alpha_of_rev_eq_some {b : Byte} {v : Sextet} (h : rev b = some v) : alpha v = b := by
  unfold rev at h
  split_ifs at h with hplus hslash hdigit hupper hlower <;> obtain rfl := Option.some.inj h
  · exact hplus.symm
  · exact hslash.symm
  all_goals
    apply BitVec.eq_of_toNat_eq
    rw [alpha_toNat, BitVec.toNat_ofNat, Nat.mod_eq_of_lt (by omega)]
    split_ifs <;> omega

/-- The listing of R66 is the closed form, entry by entry. -/
theorem alphabetListing_eq_map : alphabetListing = (List.finRange 64).map (alpha ∘ BitVec.ofFin) := by
  decide

/-- Settles O1: the listing is the image of the 64 sextets in order, under an injective map. -/
theorem alphabetMatchesTheTable : Obligations.AlphabetMatchesTheTable := by
  have hofFin : Function.Injective (BitVec.ofFin (w := 6)) := fun _ _ => congrArg BitVec.toFin
  rw [Obligations.AlphabetMatchesTheTable, alphabetListing_eq_map]
  refine ⟨by simp, (List.nodup_finRange 64).map (alpha_injective.comp hofFin), fun v => ?_⟩
  simp [v.isLt]

/-- Settles O3: each table takes the other's answer back. -/
theorem reverseTableInvertsAlphabet : Obligations.ReverseTableInvertsAlphabet :=
  ⟨rev_alpha, fun _ _ => alpha_of_rev_eq_some⟩

end Sys2Proof.Machine

namespace Sys2Proof.Machine

/-! ### The encoder: its capacity check and its result (R93 to R96) -/

/-- A command that completes leaves everything in its frame alone, whatever its operation answered. -/
theorem commandFrame_complete (u : UnitId) (m : Mode) (r : OpResult) (s : State) :
    CommandFrame u s (s.setUnit u (((s.unit u).start m).complete r)) := by
  simp [CommandFrame]

/-- `exec_next_of_operate` for a command given by its unit and mode. -/
theorem exec_instrOf_next {u : UnitId} {m : Mode} {s : State} {r : OpResult} (h : s.operate u m = .ok r) :
    exec (instrOf u m) s = .next (s.setUnit u (((s.unit u).start m).complete r)) :=
  exec_next_iff.2 ⟨r, by rw [instrOf_unit, instrOf_mode]; exact h, by rw [instrOf_unit, instrOf_mode]⟩

/-- The state after `ENC` has encoded a logical input of `n` bytes in mode `m` (R96). -/
def State.encoded (s : State) (m : Mode) (n : Nat) : State :=
  s.setUnit .enc ((s.enc.start m).complete ⟨.success, encodeSize n, encodeWrites (s.inByte .enc) n⟩)

section
variable {s : State} {m : Mode} {n : Nat}

/-- A capacity below the required size fails the command (R93). -/
theorem exec_enc_insufficient (hc : s.capacityFits .enc) (hn : s.resolves .enc m n) (h : s.enc.cap < encodeSize n) :
    exec (instrOf .enc m) s = .next (s.failed .enc m 1#3) := by
  have hop : s.operate .enc m = .ok (raise .insufficientBufferCapacity s.enc.cap) :=
    encodeOp_insufficient hc (resolveLen_eq_ok.2 hn) h
  rw [exec_instrOf_next hop]
  exact congrArg _ (complete_raise s .enc m .insufficientBufferCapacity)

theorem operate_enc_success (hc : s.capacityFits .enc) (hn : s.resolves .enc m n) (h : encodeSize n ≤ s.enc.cap) :
    s.operate .enc m = .ok ⟨.success, encodeSize n, encodeWrites (s.inByte .enc) n⟩ :=
  encodeOp_success hc (resolveLen_eq_ok.2 hn) h

/-- A capacity of at least the required size lets the command encode (R93, R96). -/
theorem exec_enc_success (hc : s.capacityFits .enc) (hn : s.resolves .enc m n) (h : encodeSize n ≤ s.enc.cap) :
    exec (instrOf .enc m) s = .next (s.encoded m n) :=
  exec_instrOf_next (operate_enc_success hc hn h)

/-- `OUT` after a successful encode: the text of the logical input (R94, R95), and from the required size on, as before
(R96). -/
theorem encoded_outByte (hc : s.capacityFits .enc) (hn : s.resolves .enc m n) (h : encodeSize n ≤ s.enc.cap) :
    EncodesTo (s.inByte .enc) ((s.encoded m n).outByte .enc) n ∧
      ∀ a, encodeSize n ≤ a → (s.encoded m n).outByte .enc a = s.outByte .enc a := by
  have hop := operate_enc_success hc hn h
  obtain ⟨hwritten, hkept⟩ := outByte_complete hop m
  exact ⟨encodeWrites_spec hwritten, fun a ha => hkept a (operate_not_mem_writes hop (.inr ha))⟩

/-- Either `ENC` command with its preconditions met and enough capacity: result, status and frame (R91, R92, R96). -/
theorem exec_enc_encodes (hc : s.capacityFits .enc) (hn : s.resolves .enc m n) (h : encodeSize n ≤ s.enc.cap) :
    ∃ t, exec (instrOf .enc m) s = .next t ∧ t.enc.mode = m ∧ t.enc.status = ⟨0#3, true, false⟩ ∧
      t.enc.cap = encodeSize n ∧ EncodesTo (s.inByte .enc) (t.outByte .enc) n ∧
      (∀ a, encodeSize n ≤ a → t.outByte .enc a = s.outByte .enc a) ∧ CommandFrame .enc s t := by
  obtain ⟨htext, hbeyond⟩ := encoded_outByte hc hn h
  exact ⟨_, exec_enc_success hc hn h, rfl, rfl, rfl, htext, hbeyond, commandFrame_complete .enc m _ s⟩

/-- The capacity check in either mode, at both sides of the required size (R93). -/
theorem exec_enc_capacityCheck (hc : s.capacityFits .enc) (hn : s.resolves .enc m n) :
    (s.enc.cap < encodeSize n → exec (instrOf .enc m) s = .next (s.failed .enc m 1#3)) ∧
      (encodeSize n ≤ s.enc.cap → ∃ t, exec (instrOf .enc m) s = .next t ∧ t.enc.status.code = 0#3) :=
  ⟨exec_enc_insufficient hc hn, fun h => ⟨_, exec_enc_success hc hn h, rfl⟩⟩

end

/-- Settles O20: the hypotheses of each clause say that `n` is the length of the logical input in its mode;
`ceil(n/3)*4` is `encodeSize n` by definition. -/
theorem encoderEncodesTheLogicalInput : Obligations.EncoderEncodesTheLogicalInput := by
  refine ⟨fun s hc hlen hcap => ?_, fun s n hc hlt hzero hbefore hcap => ?_⟩
  · exact exec_enc_encodes (m := .raw) hc ⟨rfl, hlen⟩ hcap
  · exact exec_enc_encodes (m := .str) hc ⟨hlt, hzero, hbefore⟩ hcap

/-- Settles O21: one check serves both modes. -/
theorem encoderCapacityCheck : Obligations.EncoderCapacityCheck := fun _ _ hc =>
  ⟨exec_enc_capacityCheck (m := .raw) hc, exec_enc_capacityCheck (m := .str) hc⟩

end Sys2Proof.Machine

namespace Sys2Proof.Machine

/-! ### The decoder: its three checks and its result (R113 to R120) -/

/-- A command whose operation raises a status ends in the failed state of that status (R155 to R157). -/
theorem exec_instrOf_raise {u : UnitId} {m : Mode} {s : State} {k : StatusKind}
    (h : s.operate u m = .ok (raise k (s.unit u).cap)) :
    exec (instrOf u m) s = .next (s.failed u m (statusCode k)) := by
  rw [exec_instrOf_next h, complete_raise]

section
variable {s : State} {m : Mode} {n p : Nat}

/-- Check 1: the length is no positive multiple of 4 (R113). -/
theorem exec_dec_malformed (hc : s.capacityFits .dec) (hn : s.resolves .dec m n) (h : n = 0 ∨ n % 4 ≠ 0) :
    exec (instrOf .dec m) s = .next (s.failed .dec m 2#3) :=
  exec_instrOf_raise (k := .malformedInputLength) (decodeOp_malformed hc (resolveLen_eq_ok.2 hn) h)

/-- Check 2: a byte before the pads is no symbol (R114, R115). -/
theorem exec_dec_invalid {i : Nat} (hc : s.capacityFits .dec) (hn : s.resolves .dec m n) (hpos : 0 < n) (hmod : n % 4 = 0)
    (hp : PadsOf (s.inByte .dec) n p) (hi : i < n - p) (hv : rev (s.inByte .dec i) = none) :
    exec (instrOf .dec m) s = .next (s.failed .dec m 3#3) :=
  have hwhole : ¬ (n = 0 ∨ n % 4 ≠ 0) := by omega
  exec_instrOf_raise (k := .invalidCharacter) (decodeOp_invalid hc (resolveLen_eq_ok.2 hn) hwhole hp hi hv)

/-- Check 3: the capacity is below the required size (R117). -/
theorem exec_dec_insufficient (hc : s.capacityFits .dec) (hn : s.resolves .dec m n) (ht : LegalText (s.inByte .dec) n p)
    (h : s.dec.cap < decodeSize n p) : exec (instrOf .dec m) s = .next (s.failed .dec m 1#3) :=
  exec_instrOf_raise (k := .insufficientBufferCapacity) (decodeOp_insufficient hc (resolveLen_eq_ok.2 hn) ht h)

/-- Either `DEC` command on legal text with enough capacity: result, status and frame (R111, R112, R118 to R120). -/
theorem exec_dec_decodes (hc : s.capacityFits .dec) (hn : s.resolves .dec m n) (ht : LegalText (s.inByte .dec) n p)
    (h : decodeSize n p ≤ s.dec.cap) :
    ∃ t, exec (instrOf .dec m) s = .next t ∧ t.dec.mode = m ∧ t.dec.status = ⟨0#3, true, false⟩ ∧
      t.dec.cap = decodeSize n p ∧ DecodesTo (s.inByte .dec) (t.outByte .dec) n (decodeSize n p) ∧
      (∀ a, decodeSize n p ≤ a → t.outByte .dec a = s.outByte .dec a) ∧ CommandFrame .dec s t := by
  have hop : s.operate .dec m =
      .ok ⟨.success, decodeSize n p, decodeWrites (s.inByte .dec) n (decodeSize n p)⟩ :=
    decodeOp_success hc (resolveLen_eq_ok.2 hn) ht h
  obtain ⟨hwritten, hkept⟩ := outByte_complete hop m
  exact ⟨_, exec_instrOf_next hop, rfl, rfl, rfl, decodeWrites_spec hwritten,
    fun a ha => hkept a (operate_not_mem_writes hop (.inr ha)), commandFrame_complete .dec m _ s⟩

/-- The capacity check in either mode, at both sides of the required size (R117). -/
theorem exec_dec_capacityCheck (hc : s.capacityFits .dec) (ht : LegalText (s.inByte .dec) n p)
    (hn : s.resolves .dec m n) :
    (s.dec.cap < decodeSize n p → exec (instrOf .dec m) s = .next (s.failed .dec m 1#3)) ∧
      (decodeSize n p ≤ s.dec.cap → ∃ t, exec (instrOf .dec m) s = .next t ∧ t.dec.status.code = 0#3) := by
  refine ⟨exec_dec_insufficient hc hn ht, fun h => ?_⟩
  obtain ⟨t, hexec, -, hstatus, -⟩ := exec_dec_decodes hc hn ht h
  exact ⟨t, hexec, congrArg Status.code hstatus⟩

end

/-- The host's estimate `ceil(n/4)*3` is never below the required size (R117). -/
theorem decodeSize_le_estimate (n p : Nat) : decodeSize n p ≤ (n + 3) / 4 * 3 := by
  unfold decodeSize; omega

/-- Settles O25: the hypotheses of each clause say that `n` is the length of the logical input in its mode;
`(n/4)*3 - p` is `decodeSize n p` by definition. -/
theorem decoderDecodesTheLogicalInput : Obligations.DecoderDecodesTheLogicalInput := by
  refine ⟨fun s p hc hlen htext hcap => ?_, fun s n p hc hlt hzero hbefore htext hcap => ?_⟩
  · exact exec_dec_decodes (m := .raw) hc ⟨rfl, hlen⟩ htext hcap
  · exact exec_dec_decodes (m := .str) hc ⟨hlt, hzero, hbefore⟩ htext hcap

/-- Settles O26: check 1 comes before the bytes and the capacity are looked at, in either mode. -/
theorem decoderMalformedLength : Obligations.DecoderMalformedLength :=
  ⟨fun _ _ => exec_dec_malformed (m := .raw), fun _ _ => exec_dec_malformed (m := .str)⟩

/-- Settles O27: check 2 comes before the capacity is compared with the required size, in either mode. -/
theorem decoderInvalidCharacter : Obligations.DecoderInvalidCharacter :=
  ⟨fun _ _ _ _ => exec_dec_invalid (m := .raw), fun _ _ _ _ => exec_dec_invalid (m := .str)⟩

/-- Settles O28: one check serves both modes, and the estimate rounds up where the required size rounds down. -/
theorem decoderCapacityCheck : Obligations.DecoderCapacityCheck := fun _ n p hc ht =>
  ⟨exec_dec_capacityCheck (m := .raw) hc ht, exec_dec_capacityCheck (m := .str) hc ht, decodeSize_le_estimate n p⟩

end Sys2Proof.Machine

namespace Sys2Proof.Machine

/-! ### The two modes on one logical input (R144) -/

/-- The state after the host has set `IN_LEN` of a unit to `k` (R26). -/
def State.withInLen (s : State) (u : UnitId) (k : Nat) : State := s.setUnit u { s.unit u with inLen := k }

section
variable (s : State) (u : UnitId) (k : Nat)

@[simp] theorem withInLen_params : (s.withInLen u k).params = s.params := by simp [State.withInLen]
@[simp] theorem withInLen_outBytes : (s.withInLen u k).outBytes u = s.outBytes u := by simp [State.withInLen]
@[simp] theorem withInLen_inBytes : (s.withInLen u k).inBytes u = s.inBytes u := by simp [State.withInLen]
@[simp] theorem withInLen_inLen : ((s.withInLen u k).unit u).inLen = k := by simp [State.withInLen]
@[simp] theorem withInLen_cap : ((s.withInLen u k).unit u).cap = (s.unit u).cap := by simp [State.withInLen]

/-- `IN_LEN` is no part of either buffer. -/
@[simp] theorem withInLen_byteAt (b : Buf) : (s.withInLen u k).byteAt u b = s.byteAt u b := by
  funext a
  refine byteAt_congr ?_ (by simp [State.withInLen]) a
  cases b <;> simp [State.withInLen, UnitState.buf]

end

/-- With `IN_LEN = k` within the buffer, raw mode takes `k` as the length (R142). -/
theorem withInLen_resolves_raw {s : State} {u : UnitId} {k : Nat} (h : k ≤ s.inBytes u) :
    (s.withInLen u k).resolves u .raw k :=
  ⟨(withInLen_inLen s u k).symm, by simpa using h⟩

/-- Setting `IN_LEN` to the length that string mode finds lets the raw-mode operation answer as the string-mode one. -/
theorem operate_raw_withInLen {s : State} {u : UnitId} {k : Nat} (hk : s.resolves u .str k) :
    (s.withInLen u k).operate u .raw = s.operate u .str :=
  operate_congr (withInLen_params s u k) (withInLen_cap s u k) hk (withInLen_resolves_raw (State.resolves_le hk))
    fun a _ => congrFun (withInLen_byteAt s u k .input) a

/-- Settles O42: the string-mode length is `k`, so both operations answer the same result over the same prior `OUT`; a
capacity beyond the buffer is refused in either mode before the length is looked at. -/
theorem modesAgreeWhereBothApply : Obligations.ModesAgreeWhereBothApply := by
  intro u s k hlt hzero hbefore
  have hk : s.resolves u .str k := ⟨hlt, hzero, hbefore⟩
  refine ⟨fun hc => ?_, fun hc => ?_⟩
  · obtain ⟨r, hstr⟩ := operate_total hc hk
    have hraw := (operate_raw_withInLen hk).trans hstr
    refine ⟨_, _, exec_instrOf_next hstr, exec_instrOf_next hraw, by simp, by simp, fun a => ?_⟩
    exact outByte_complete_congr hstr hraw (congrFun (withInLen_byteAt s u k .output) a)
  · have hbeyond : s.outBytes u < (s.unit u).cap := Nat.lt_of_not_le hc
    exact ⟨exec_instrOf_refused (operate_capacityBeyondBuffer .str hbeyond),
      exec_instrOf_refused (s := s.withInLen u k) (operate_capacityBeyondBuffer .raw (by simpa using hbeyond))⟩

end Sys2Proof.Machine

namespace Sys2Proof.Machine

/-! ### Commands that end in a failure (R155 to R158) -/

@[simp] theorem failed_unit_code (s : State) (u : UnitId) (m : Mode) (code : BitVec 3) :
    ((s.failed u m code).unit u).status.code = code := by
  rw [State.failed, setUnit_unit]

/-- A command ends with a nonzero code only where its operation raised a status, and then in the failed state of that
status. -/
theorem exec_failed {i : Instr} {s t : State} (h : exec i s = .next t) (hcode : (t.unit i.unit).status.code ≠ 0#3) :
    ∃ k, s.operate i.unit i.mode = .ok (raise k (s.unit i.unit).cap) ∧
      t = s.failed i.unit i.mode (statusCode k) := by
  obtain ⟨r, hr, rfl⟩ := exec_next_iff.1 h
  obtain ⟨-, -, -, hraise, -⟩ := operate_ok hr
  have hstatus : r.status ≠ .success := fun hs =>
    hcode (by rw [setUnit_unit, complete_status, completed_code, statusCode_eq_zero.2 hs])
  rw [hraise hstatus] at hr ⊢
  exact ⟨r.status, hr, complete_raise s i.unit i.mode r.status⟩

/-- Settles O38: a raised result writes nothing and returns the capacity it was offered. -/
theorem failedCommandChangesOnlyStatus : Obligations.FailedCommandChangesOnlyStatus := by
  intro i s t h hcode
  obtain ⟨k, -, rfl⟩ := exec_failed h hcode
  rw [failed_unit_code]

end Sys2Proof.Machine

namespace Sys2Proof.Machine

/-! ### The invariant along every step -/

theorem State.wf_takeAction {s : State} (h : s.wf) (rest : List HostAction) : State.wf { s with program := rest } := h

/-- A host action that goes on keeps the invariant: register writes are cut to `LEN_W` bits (R22) and byte writes stay
within the buffer (R40). -/
theorem State.wf_hostPerform {a : HostAction} {s t : State} (h : s.wf) (ht : hostPerform a s = .next t) : t.wf := by
  obtain ⟨hp, hu⟩ := State.wf_iff.1 h
  rcases hostPerform_next ht with ⟨r, v, -, -, rfl⟩ | ⟨u, b, i, v, -, hi, -, rfl⟩ | ⟨hparams, -, -, hunit⟩
  · exact State.wf_setUnit h (UnitState.wf_writeRegister (hu _) _ v)
  · exact State.wf_setUnit h (UnitState.wf_setBuf_write (hu u) b (by cases b <;> exact hi) v)
  · refine State.wf_iff.2 ⟨by rw [hparams]; exact hp, fun u => ?_⟩
    rw [hunit, State.inBytes, State.outBytes, hparams]
    exact hu u

/-- Settles O49: one lemma for each of the five things a step can do. -/
theorem everyStepKeepsTheStateWellFormed : Obligations.EveryStepKeepsTheStateWellFormed := by
  intro s t hwf hstep
  have hpop : s.popTurn.wf := State.wf_popTurn hwf
  rcases step_cases hstep with ⟨-, -, rfl⟩ | ⟨a, rest, -, -, hact⟩ | ⟨u, r, -, -, hop, rfl⟩ | ⟨u, -, -, rfl⟩ | ⟨-, rfl⟩
  · exact hpop
  · exact State.wf_hostPerform (State.wf_takeAction hpop rest) hact
  · exact State.wf_popTurn (State.wf_complete hwf hop)
  · exact hpop
  · exact State.wf_resetEvent hpop

/-- The range `2^LEN_W` that the choices of R5 are reduced by is not empty. -/
theorem Config.params_wellFormed : Config.params.wellFormed = true := by
  have hpos : 0 < 2 ^ Config.lenW := Nat.two_pow_pos _
  have hlt (k : Nat) : k % 2 ^ Config.lenW < 2 ^ Config.lenW := Nat.mod_lt k hpos
  have hin (k : Nat) : k % 2 ^ Config.lenW + 1 ≤ 2 ^ Config.lenW := hlt k
  have hout (k : Nat) : k % 2 ^ Config.lenW ≤ 2 ^ Config.lenW - 1 := Nat.le_sub_one_of_lt (hlt k)
  have hwidth : 8 ≤ Config.lenW := Nat.le_add_right 8 _
  simp [Params.wellFormed, Params.widthOk, Params.inSizeOk, Params.outSizeOk, Params.inBytes, Params.outBytes,
    Config.params, hin, hout, hwidth]

/-- Settles O48: the parameters are reduced into their ranges, and a unit after reset holds nothing. -/
theorem resetStateIsWellFormed : Obligations.ResetStateIsWellFormed :=
  ⟨Config.params_wellFormed, UnitState.wf_reset, UnitState.wf_reset⟩

/-! ### What only some steps can change (R25, R28 to R30, R52) -/

/-- Settles O50: the host changes neither, a unit's turn changes its unit only, and the reset event starts a new launch. -/
theorem parametersAreFixed : Obligations.ParametersAreFixed := by
  intro s t hstep
  rcases step_cases hstep with ⟨-, -, rfl⟩ | ⟨a, rest, -, -, hact⟩ | ⟨u, r, -, -, -, rfl⟩ | ⟨u, -, -, rfl⟩ | ⟨hturn, rfl⟩
  · exact ⟨rfl, fun _ => rfl⟩
  · obtain ⟨hparams, hlaunch⟩ := hostPerform_params_launch hact
    exact ⟨hparams, fun _ => hlaunch⟩
  · exact ⟨by simp, fun _ => by simp⟩
  · exact ⟨rfl, fun _ => rfl⟩
  · exact ⟨rfl, fun hne => absurd hturn hne⟩

/-- The host performs an action on units that are as before the step. -/
theorem hostAction_unit (s : State) (rest : List HostAction) (u : UnitId) :
    State.unit { s.popTurn with program := rest } u = s.unit u := by
  rw [takeAction_unit, popTurn_unit]

/-- Settles O44: the host cannot change a busy unit, and the turn of the other unit does not reach it. -/
theorem operandsAreHeldWhileBusy : Obligations.OperandsAreHeldWhileBusy := by
  intro s t u hstep hbusy hturn hreset
  obtain ⟨hparams, hlaunch⟩ := parametersAreFixed s t hstep
  refine ⟨?_, hparams, hlaunch hreset⟩
  rcases step_cases hstep with ⟨-, -, rfl⟩ | ⟨a, rest, -, -, hact⟩ | ⟨v, r, hv, -, -, rfl⟩ | ⟨v, -, -, rfl⟩ | ⟨hr, -⟩
  · exact popTurn_unit s u
  · exact (hostPerform_unit_of_busy hact (by rwa [hostAction_unit])).trans (hostAction_unit s rest u)
  · have hne : u ≠ v := fun h => hturn (h ▸ hv)
    rw [unit_of_ne _ _ _ hne, popTurn_unit]
  · exact popTurn_unit s u
  · exact absurd hr hreset

/-- A register write makes an idle unit busy only as its start step. -/
theorem writeRegister_busy_iff {x : UnitState} {lenW v : Nat} {k : BitVec 2} (h : x.status.busy = false) :
    (x.writeRegister lenW k v).status.busy = true ↔ k = 0#2 := by
  rcases unit_writeRegister_cases x lenW k v with ⟨rfl, e⟩ | ⟨rfl, e⟩ | ⟨rfl, e⟩ | ⟨rfl, e⟩ <;> rw [e]
  · simp
  all_goals simp [h]

/-- A register write never sets `DONE`. -/
theorem writeRegister_done {x : UnitState} {lenW v : Nat} {k : BitVec 2} (h : x.status.done = false) :
    (x.writeRegister lenW k v).status.done = false := by
  rcases unit_writeRegister_cases x lenW k v with ⟨-, e⟩ | ⟨-, e⟩ | ⟨-, e⟩ | ⟨-, e⟩ <;> rw [e]
  · rfl
  all_goals exact h

/-- `U.CMD` is register 0 of its unit (R22). -/
theorem eq_cmdRegister {r : BitVec 3} (h : registerIndex r = 0#2) : r = registerNumber (registerUnit r) 0 := by
  revert r; decide

/-- A host action that makes an idle unit busy is a write of that unit's `CMD`. -/
theorem hostPerform_starts {a : HostAction} {s t : State} {u : UnitId} (h : hostPerform a s = .next t)
    (hidle : (s.unit u).status.busy = false) (hbusy : (t.unit u).status.busy = true) :
    ∃ v, a = .wr (registerNumber u 0) v := by
  have hchange : (t.unit u).status ≠ (s.unit u).status := fun e => by rw [e, hidle] at hbusy; cases hbusy
  rcases hostPerform_next h with ⟨r, v, rfl, -, rfl⟩ | ⟨w, b, i, v, -, -, -, rfl⟩ | ⟨-, -, -, hunit⟩
  · by_cases hu : u = registerUnit r
    · subst hu
      rw [setUnit_unit, writeRegister_busy_iff hidle] at hbusy
      exact ⟨v, by rw [← eq_cmdRegister hbusy]⟩
    · exact absurd (by rw [unit_of_ne _ _ _ hu]) hchange
  · by_cases hu : u = w
    · subst hu
      exact absurd (by rw [setUnit_unit, setBuf_status]) hchange
    · exact absurd (by rw [unit_of_ne _ _ _ hu]) hchange
  · exact absurd (by rw [hunit]) hchange

/-- No host action sets `DONE`. -/
theorem hostPerform_done {a : HostAction} {s t : State} {u : UnitId} (h : hostPerform a s = .next t)
    (hdone : (s.unit u).status.done = false) : (t.unit u).status.done = false := by
  rcases hostPerform_next h with ⟨r, v, -, -, rfl⟩ | ⟨w, b, i, v, -, -, -, rfl⟩ | ⟨-, -, -, hunit⟩
  · by_cases hu : u = registerUnit r
    · subst hu
      rw [setUnit_unit]
      exact writeRegister_done hdone
    · rwa [unit_of_ne _ _ _ hu]
  · by_cases hu : u = w
    · subst hu
      rwa [setUnit_unit, setBuf_status]
    · rwa [unit_of_ne _ _ _ hu]
  · rwa [hunit]

/-- Settles O45: a completion leaves its unit idle, and the reset event both; what is left is a host action. -/
theorem onlyACommandWriteStartsAUnit : Obligations.OnlyACommandWriteStartsAUnit := by
  intro s t u hstep hidle hbusy
  have hsame {w : State} (hw : w.unit u = s.unit u) : (w.unit u).status.busy ≠ true := by rw [hw, hidle]; decide
  rcases step_cases hstep with ⟨-, -, rfl⟩ | ⟨a, rest, hn, hp, hact⟩ | ⟨v, r, -, -, -, rfl⟩ | ⟨v, -, -, rfl⟩ | ⟨-, rfl⟩
  · exact absurd hbusy (hsame (popTurn_unit s u))
  · obtain ⟨v, rfl⟩ := hostPerform_starts hact (by rwa [hostAction_unit]) hbusy
    exact ⟨hn, v, rest, hp⟩
  · by_cases hu : u = v
    · subst hu
      rw [setUnit_unit, complete_status, completed_busy] at hbusy
      cases hbusy
    · exact absurd hbusy (hsame (by rw [unit_of_ne _ _ _ hu, popTurn_unit]))
  · exact absurd hbusy (hsame (popTurn_unit s u))
  · rw [resetEvent_unit] at hbusy
    cases hbusy

/-- Settles O46: of the five things a step can do, only the completion of that unit sets its `DONE`. -/
theorem onlyACompletionSetsDone : Obligations.OnlyACompletionSetsDone := by
  intro s t u hstep hundone hdone
  have hsame {w : State} (hw : w.unit u = s.unit u) : (w.unit u).status.done ≠ true := by rw [hw, hundone]; decide
  rcases step_cases hstep with ⟨-, -, rfl⟩ | ⟨a, rest, -, -, hact⟩ | ⟨v, r, hn, hb, -, rfl⟩ | ⟨v, -, -, rfl⟩ | ⟨-, rfl⟩
  · exact absurd hdone (hsame (popTurn_unit s u))
  · rw [hostPerform_done hact (by rwa [hostAction_unit])] at hdone
    cases hdone
  · by_cases hu : u = v
    · subst hu
      exact ⟨hn, hb, by rw [setUnit_unit, complete_status, completed_busy]⟩
    · exact absurd hdone (hsame (by rw [unit_of_ne _ _ _ hu, popTurn_unit]))
  · exact absurd hdone (hsame (popTurn_unit s u))
  · rw [resetEvent_unit] at hdone
    cases hdone

end Sys2Proof.Machine

namespace Sys2Proof.Machine

/-! ### What a text stands for, byte by byte (R71 to R76) -/

/-- Byte `a` of what a text stands for: one of the three bytes of group `a / 3` (R73). -/
def decodedByte (text : Nat → Byte) (a : Nat) : Byte :=
  let sextet (k : Nat) : Sextet := symbolValue (text (4 * (a / 3) + k))
  match a % 3 with
  | 0 => groupByte0 (sextet 0) (sextet 1)
  | 1 => groupByte1 (sextet 1) (sextet 2)
  | _ => groupByte2 (sextet 2) (sextet 3)

section
variable (text : Nat → Byte) (g : Nat)

theorem decodedByte_first :
    decodedByte text (3 * g) = groupByte0 (symbolValue (text (4 * g))) (symbolValue (text (4 * g + 1))) := by
  have hdiv : 3 * g / 3 = g := by omega
  have hmod : 3 * g % 3 = 0 := by omega
  simp [decodedByte, hdiv, hmod]

theorem decodedByte_second :
    decodedByte text (3 * g + 1) = groupByte1 (symbolValue (text (4 * g + 1))) (symbolValue (text (4 * g + 2))) := by
  have hdiv : (3 * g + 1) / 3 = g := by omega
  have hmod : (3 * g + 1) % 3 = 1 := by omega
  simp [decodedByte, hdiv, hmod]

theorem decodedByte_third :
    decodedByte text (3 * g + 2) = groupByte2 (symbolValue (text (4 * g + 2))) (symbolValue (text (4 * g + 3))) := by
  have hdiv : (3 * g + 2) / 3 = g := by omega
  have hmod : (3 * g + 2) % 3 = 2 := by omega
  simp [decodedByte, hdiv, hmod]

end

/-- Every byte index is the first, the second or the third of a group. -/
theorem byteIndex_cases (a : Nat) : ∃ g, a = 3 * g ∨ a = 3 * g + 1 ∨ a = 3 * g + 2 := ⟨a / 3, by omega⟩

/-- Every symbol index is one of the four of a group. -/
theorem symbolIndex_cases (a : Nat) : ∃ g, a = 4 * g ∨ a = 4 * g + 1 ∨ a = 4 * g + 2 ∨ a = 4 * g + 3 :=
  ⟨a / 4, by omega⟩

/-- Two texts that agree up to the length of the bytes' symbols stand for the same bytes. -/
theorem decodedByte_congr {f g : Nat → Byte} {k a : Nat} (h : ∀ i < 4 * k, f i = g i) (ha : a < 3 * k) :
    decodedByte f a = decodedByte g a := by
  obtain ⟨q, rfl | rfl | rfl⟩ := byteIndex_cases a
  · rw [decodedByte_first, decodedByte_first, h _ (by omega), h _ (by omega)]
  · rw [decodedByte_second, decodedByte_second, h _ (by omega), h _ (by omega)]
  · rw [decodedByte_third, decodedByte_third, h _ (by omega), h _ (by omega)]

@[simp] theorem symbolValue_alpha (v : Sextet) : symbolValue (alpha v) = v := by simp [symbolValue]

/-- The pad is no symbol (R67, R68). -/
theorem alpha_ne_pad (v : Sextet) : alpha v ≠ 0x3D#8 := fun h => by
  have hrev := rev_alpha v
  rw [h] at hrev
  exact absurd hrev.symm (Option.some_ne_none v)

/-! ### The symbols of an encoded text -/

/-- The number of pads after the text of `n` bytes (R75, R97 (b)). -/
def padsOfLength (n : Nat) : Nat := (3 - n % 3) % 3

theorem encodeSize_add_pads (n : Nat) : 3 * encodeSize n = 4 * (n + padsOfLength n) := by
  rw [encodeSize_eq, padsOfLength]
  split <;> omega

theorem padsOfLength_le (n : Nat) : padsOfLength n ≤ 2 := by unfold padsOfLength; omega

/-- The zero fill of a one-byte group (R72). -/
theorem lastSextet1_fill (b : Byte) : (lastSextet1 b).extractLsb' 0 4 = 0#4 :=
  (lastSextet1_groupByte0 (sextet0 b) _).1 (by rw [groupByte0_lastSextet1])

/-- The zero fill of a two-byte group (R72). -/
theorem lastSextet2_fill (b : Byte) : (lastSextet2 b).extractLsb' 0 2 = 0#2 :=
  (lastSextet2_groupByte1 (sextet1 0#8 b) _).1 (by rw [groupByte1_lastSextet2])

namespace EncodesTo
variable {input text : Nat → Byte} {n g : Nat}

theorem symbol0 (h : EncodesTo input text n) (hg : 3 * g < n) : text (4 * g) = alpha (sextet0 (input (3 * g))) := by
  obtain ⟨hfull, htwo, hone⟩ := h
  by_cases hlast : g < n / 3
  · obtain ⟨h0, -⟩ := hfull g hlast
    exact h0
  · obtain rfl : g = n / 3 := by omega
    obtain hr | hr : n % 3 = 2 ∨ n % 3 = 1 := by omega
    · obtain ⟨h0, -⟩ := htwo hr
      exact h0
    · obtain ⟨h0, -⟩ := hone hr
      exact h0

theorem symbol1 (h : EncodesTo input text n) (hg : 3 * g + 1 < n) :
    text (4 * g + 1) = alpha (sextet1 (input (3 * g)) (input (3 * g + 1))) := by
  obtain ⟨hfull, htwo, -⟩ := h
  by_cases hlast : g < n / 3
  · obtain ⟨-, h1, -⟩ := hfull g hlast
    exact h1
  · obtain rfl : g = n / 3 := by omega
    obtain ⟨-, h1, -⟩ := htwo (by omega)
    exact h1

theorem symbol1_last (h : EncodesTo input text n) (hg : n = 3 * g + 1) :
    text (4 * g + 1) = alpha (lastSextet1 (input (3 * g))) := by
  obtain ⟨-, -, hone⟩ := h
  obtain rfl : g = n / 3 := by omega
  obtain ⟨-, h1, -⟩ := hone (by omega)
  exact h1

theorem symbol2 (h : EncodesTo input text n) (hg : 3 * g + 2 < n) :
    text (4 * g + 2) = alpha (sextet2 (input (3 * g + 1)) (input (3 * g + 2))) := by
  obtain ⟨hfull, -, -⟩ := h
  obtain ⟨-, -, h2, -⟩ := hfull g (by omega)
  exact h2

theorem symbol2_last (h : EncodesTo input text n) (hg : n = 3 * g + 2) :
    text (4 * g + 2) = alpha (lastSextet2 (input (3 * g + 1))) := by
  obtain ⟨-, htwo, -⟩ := h
  obtain rfl : g = n / 3 := by omega
  obtain ⟨-, -, h2, -⟩ := htwo (by omega)
  exact h2

theorem symbol3 (h : EncodesTo input text n) (hg : 3 * g + 2 < n) :
    text (4 * g + 3) = alpha (sextet3 (input (3 * g + 2))) := by
  obtain ⟨hfull, -, -⟩ := h
  obtain ⟨-, -, -, h3⟩ := hfull g (by omega)
  exact h3

/-- The last `padsOfLength n` bytes of the text are pads. -/
theorem pad_of_le (h : EncodesTo input text n) {a : Nat} (ha : a < encodeSize n)
    (hp : encodeSize n ≤ a + padsOfLength n) : text a = 0x3D#8 := by
  have hsize := encodeSize_add_pads n
  unfold padsOfLength at hsize hp
  obtain ⟨-, htwo, hone⟩ := h
  obtain hr | hr | hr : n % 3 = 0 ∨ n % 3 = 1 ∨ n % 3 = 2 := by omega
  · omega
  · obtain ⟨-, -, h2, h3⟩ := hone hr
    obtain rfl | rfl : a = 4 * (n / 3) + 2 ∨ a = 4 * (n / 3) + 3 := by omega
    · exact h2
    · exact h3
  · obtain ⟨-, -, -, h3⟩ := htwo hr
    obtain rfl : a = 4 * (n / 3) + 3 := by omega
    exact h3

/-- Every byte before the pads is a symbol. -/
theorem symbol_of_lt (h : EncodesTo input text n) {a : Nat} (ha : a + padsOfLength n < encodeSize n) :
    ∃ v : Sextet, text a = alpha v := by
  have hsize := encodeSize_add_pads n
  have hle := padsOfLength_le n
  obtain ⟨g, rfl | rfl | rfl | rfl⟩ := symbolIndex_cases a
  · exact ⟨_, h.symbol0 (by omega)⟩
  · obtain hlt | heq : 3 * g + 1 < n ∨ n = 3 * g + 1 := by omega
    · exact ⟨_, h.symbol1 hlt⟩
    · exact ⟨_, h.symbol1_last heq⟩
  · obtain hlt | heq : 3 * g + 2 < n ∨ n = 3 * g + 2 := by omega
    · exact ⟨_, h.symbol2 hlt⟩
    · exact ⟨_, h.symbol2_last heq⟩
  · exact ⟨_, h.symbol3 (by omega)⟩

/-- The text of an input stands for that input. -/
theorem decodedByte_eq (h : EncodesTo input text n) {a : Nat} (ha : a < n) : decodedByte text a = input a := by
  obtain ⟨g, rfl | rfl | rfl⟩ := byteIndex_cases a
  · rw [decodedByte_first, h.symbol0 ha, symbolValue_alpha]
    obtain hlt | heq : 3 * g + 1 < n ∨ n = 3 * g + 1 := by omega
    · rw [h.symbol1 hlt, symbolValue_alpha, groupByte0_sextets]
    · rw [h.symbol1_last heq, symbolValue_alpha, groupByte0_lastSextet1]
  · rw [decodedByte_second, h.symbol1 ha, symbolValue_alpha]
    obtain hlt | heq : 3 * g + 2 < n ∨ n = 3 * g + 2 := by omega
    · rw [h.symbol2 hlt, symbolValue_alpha, groupByte1_sextets]
    · rw [h.symbol2_last heq, symbolValue_alpha, groupByte1_lastSextet2]
  · rw [decodedByte_third, h.symbol2 ha, h.symbol3 ha, symbolValue_alpha, symbolValue_alpha, groupByte2_sextets]

/-- A text that agrees with the text of an input stands for that input too. -/
theorem decodedByte_of_agrees (h : EncodesTo input text n) {text' : Nat → Byte}
    (hagree : ∀ i < encodeSize n, text' i = text i) {a : Nat} (ha : a < n) : decodedByte text' a = input a := by
  have hsize := encodeSize_add_pads n
  rw [decodedByte_congr (k := encodeSize n / 4) (fun i hi => hagree i (by omega)) (by omega), h.decodedByte_eq ha]

/-- A byte of the text is the pad exactly among its last `padsOfLength n`. -/
theorem eq_pad_iff (h : EncodesTo input text n) {a : Nat} (ha : a < encodeSize n) :
    text a = 0x3D#8 ↔ encodeSize n ≤ a + padsOfLength n := by
  refine ⟨fun hpad => ?_, h.pad_of_le ha⟩
  by_contra hlt
  obtain ⟨v, hv⟩ := h.symbol_of_lt (Nat.lt_of_not_le hlt)
  exact alpha_ne_pad v (hv.symm.trans hpad)

/-- The pad count that the decoder finds is the number of pads the encoder wrote (R76 (b)). -/
theorem padsOf (h : EncodesTo input text n) (hn : 1 ≤ n) : PadsOf text (encodeSize n) (padsOfLength n) := by
  have hsize := encodeSize_add_pads n
  have hle := padsOfLength_le n
  have hlast := h.eq_pad_iff (a := encodeSize n - 1) (by omega)
  have hprev := h.eq_pad_iff (a := encodeSize n - 2) (by omega)
  obtain hp | hp | hp : padsOfLength n = 2 ∨ padsOfLength n = 1 ∨ padsOfLength n = 0 := by omega
  · exact .inl ⟨hp, hlast.2 (by omega), hprev.2 (by omega)⟩
  · exact .inr (.inl ⟨hp, hlast.2 (by omega), fun e => absurd (hprev.1 e) (by omega)⟩)
  · exact .inr (.inr ⟨hp, fun e => absurd (hlast.1 e) (by omega)⟩)

/-- The text of at least one byte is legal decoder input (R97 (e)). -/
theorem legalText (h : EncodesTo input text n) (hn : 1 ≤ n) : LegalText text (encodeSize n) (padsOfLength n) := by
  have hsize := encodeSize_add_pads n
  refine ⟨by omega, by omega, h.padsOf hn, fun i hi => ?_⟩
  obtain ⟨v, hv⟩ := h.symbol_of_lt (a := i) (by omega)
  exact ⟨v, by rw [hv, rev_alpha]⟩

/-- The zero fill of a partial group is what the pads leave over (R72, R74). -/
theorem discardedBitsZero (h : EncodesTo input text n) : DiscardedBitsZero text (encodeSize n) (padsOfLength n) := by
  have hsize := encodeSize_add_pads n
  refine ⟨fun hp s1 hs => ?_, fun hp s2 hs => ?_⟩
  · obtain ⟨g, hg⟩ : ∃ g, n = 3 * g + 1 := ⟨n / 3, by unfold padsOfLength at hp; omega⟩
    rw [show encodeSize n - 3 = 4 * g + 1 by omega, h.symbol1_last hg, rev_alpha] at hs
    rw [← Option.some.inj hs, lastSextet1_fill]
  · obtain ⟨g, hg⟩ : ∃ g, n = 3 * g + 2 := ⟨n / 3, by unfold padsOfLength at hp; omega⟩
    rw [show encodeSize n - 2 = 4 * g + 2 by omega, h.symbol2_last hg, rev_alpha] at hs
    rw [← Option.some.inj hs, lastSextet2_fill]

end EncodesTo

/-- The required size of the decoder undoes that of the encoder (R93, R116). -/
theorem decodeSize_encodeSize (n : Nat) : decodeSize (encodeSize n) (padsOfLength n) = n := by
  have hsize := encodeSize_add_pads n
  unfold decodeSize; omega

/-! ### The bytes of a decoded text -/

theorem padsOf_congr {f g : Nat → Byte} {n p : Nat} (hn : 0 < n) (h : ∀ a < n, f a = g a) (hp : PadsOf f n p) :
    PadsOf g n p := by
  unfold PadsOf at hp ⊢
  rwa [← h (n - 1) (by omega), ← h (n - 2) (by omega)]

theorem padsOf_unique {input : Nat → Byte} {n p q : Nat} (hp : PadsOf input n p) (hq : PadsOf input n q) : p = q :=
  (padCount_iff.1 hp).trans (padCount_iff.1 hq).symm

theorem legalText_congr {f g : Nat → Byte} {n p : Nat} (h : ∀ a < n, f a = g a) (ht : LegalText f n p) :
    LegalText g n p := by
  obtain ⟨hpos, hmod, hpads, hsym⟩ := ht
  exact ⟨hpos, hmod, padsOf_congr hpos h hpads, fun i hi => by rw [← h i (by omega)]; exact hsym i hi⟩

namespace LegalText
variable {text : Nat → Byte} {n p : Nat}

theorem pos (ht : LegalText text n p) : 0 < n := ht.1
theorem length_mod (ht : LegalText text n p) : n % 4 = 0 := ht.2.1
theorem padsOf (ht : LegalText text n p) : PadsOf text n p := ht.2.2.1

theorem pads_le (ht : LegalText text n p) : p ≤ 2 := by
  rw [padCount_iff.1 ht.padsOf]
  exact padCount_le text n

/-- The length of a legal text from the number of bytes it stands for: three bytes to four symbols, pads counted in. -/
theorem length_eq (ht : LegalText text n p) : 3 * n = 4 * (decodeSize n p + p) := by
  have hle := ht.pads_le
  have hpos := ht.pos
  have hmod := ht.length_mod
  unfold decodeSize; omega

theorem rev_eq (ht : LegalText text n p) {i : Nat} (hi : i < n - p) : rev (text i) = some (symbolValue (text i)) := by
  obtain ⟨-, -, -, hsym⟩ := ht
  obtain ⟨v, hv⟩ := hsym i hi
  rw [symbolValue, hv]; rfl

theorem alpha_symbolValue (ht : LegalText text n p) {i : Nat} (hi : i < n - p) : alpha (symbolValue (text i)) = text i :=
  alpha_of_rev_eq_some (ht.rev_eq hi)

/-- A symbol of the text comes from its value and from no other. -/
theorem alpha_eq_iff (ht : LegalText text n p) {i : Nat} (hi : i < n - p) {v : Sextet} :
    alpha v = text i ↔ v = symbolValue (text i) := by
  rw [← alpha_injective.eq_iff, ht.alpha_symbolValue hi]

/-- The last `p` bytes of the text are pads. -/
theorem eq_pad (ht : LegalText text n p) {i : Nat} (hi : i < n) (hp : n ≤ i + p) : text i = 0x3D#8 := by
  obtain ⟨rfl, hlast, hprev⟩ | ⟨rfl, hlast, -⟩ | ⟨rfl, -⟩ := ht.padsOf
  · obtain rfl | rfl : i = n - 1 ∨ i = n - 2 := by omega
    · exact hlast
    · exact hprev
  · obtain rfl : i = n - 1 := by omega
    exact hlast
  · omega

/-- The bytes a legal text decodes to are those it stands for (R73, R74). -/
theorem decoded_eq (ht : LegalText text n p) {bytes : Nat → Byte} (hd : DecodesTo text bytes n (decodeSize n p)) {a : Nat}
    (ha : a < decodeSize n p) : bytes a = decodedByte text a := by
  have hlen := ht.length_eq
  obtain ⟨g, rfl | rfl | rfl⟩ := byteIndex_cases a
  · obtain ⟨hfirst, -, -⟩ := hd g (by omega)
    rw [decodedByte_first]
    exact hfirst _ _ (ht.rev_eq (by omega)) (ht.rev_eq (by omega))
  · obtain ⟨-, hsecond, -⟩ := hd g (by omega)
    rw [decodedByte_second]
    exact hsecond ha _ _ (ht.rev_eq (by omega)) (ht.rev_eq (by omega))
  · obtain ⟨-, -, hthird⟩ := hd g (by omega)
    rw [decodedByte_third]
    exact hthird ha _ _ (ht.rev_eq (by omega)) (ht.rev_eq (by omega))

/-- The discarded bits of a legal text are those of the last symbol before the pads. -/
theorem discardedBitsZero_iff (ht : LegalText text n p) : DiscardedBitsZero text n p ↔
    (p = 2 → (symbolValue (text (n - 3))).extractLsb' 0 4 = 0#4) ∧
      (p = 1 → (symbolValue (text (n - 2))).extractLsb' 0 2 = 0#2) := by
  have hlen := ht.length_eq
  refine and_congr (forall_congr' fun hp => ?_) (forall_congr' fun hp => ?_)
  · rw [ht.rev_eq (by omega)]
    simp
  · rw [ht.rev_eq (by omega)]
    simp

end LegalText

end Sys2Proof.Machine

namespace Sys2Proof.Machine

/-! ### What a completed command says about its operands and its output (R96, R120) -/

/-- A command that completes was offered a capacity within `OUT` (R44). -/
theorem exec_instrOf_capacityFits {u : UnitId} {m : Mode} {s t : State} (h : exec (instrOf u m) s = .next t) :
    s.capacityFits u := by
  obtain ⟨r, hr, -⟩ := exec_instrOf_code h
  exact (operate_ok hr).1

section
variable {s t : State} {m : Mode} {n p : Nat}

/-- The code of a completed encode says on which side of the required size the capacity was (R93). -/
theorem exec_enc_code (h : exec (instrOf .enc m) s = .next t) (hn : s.resolves .enc m n) :
    (s.enc.cap < encodeSize n → t.enc.status.code = 1#3) ∧ (encodeSize n ≤ s.enc.cap → t.enc.status.code = 0#3) := by
  have hc := exec_instrOf_capacityFits h
  refine ⟨fun hcap => ?_, fun hcap => ?_⟩
  · rw [exec_enc_insufficient hc hn hcap] at h
    cases h
    exact failed_unit_code s .enc m 1#3
  · rw [exec_enc_success hc hn hcap] at h
    cases h
    rfl

/-- A successful encode: `CAP` is the required size and `OUT` holds the text of the logical input. -/
theorem exec_enc_succeeded (h : exec (instrOf .enc m) s = .next t) (hcode : t.enc.status.code = 0#3)
    (hn : s.resolves .enc m n) : t.enc.cap = encodeSize n ∧ EncodesTo (s.inByte .enc) (t.outByte .enc) n := by
  have hc := exec_instrOf_capacityFits h
  obtain hcap | hcap := Nat.lt_or_ge s.enc.cap (encodeSize n)
  · rw [(exec_enc_code h hn).1 hcap] at hcode
    exact absurd hcode (by decide)
  · obtain ⟨t', ht', -, -, hsize, htext, -⟩ := exec_enc_encodes hc hn hcap
    obtain rfl : t' = t := by rw [h] at ht'; cases ht'; rfl
    exact ⟨hsize, htext⟩

/-- The codes of a completed decode of legal text say on which side of the required size the capacity was (R117). -/
theorem exec_dec_code_of_legalText (h : exec (instrOf .dec m) s = .next t) (hn : s.resolves .dec m n)
    (ht : LegalText (s.inByte .dec) n p) :
    (s.dec.cap < decodeSize n p → t.dec.status.code = 1#3) ∧ (decodeSize n p ≤ s.dec.cap → t.dec.status.code = 0#3) := by
  have hc := exec_instrOf_capacityFits h
  refine ⟨fun hcap => ?_, fun hcap => ?_⟩
  · rw [exec_dec_insufficient hc hn ht hcap] at h
    cases h
    exact failed_unit_code s .dec m 1#3
  · obtain ⟨t', ht', hcode⟩ := (exec_dec_capacityCheck hc ht hn).2 hcap
    rw [h] at ht'
    cases ht'
    exact hcode

/-- A length that is no positive multiple of 4 ends a completed decode with code 2 (R113). -/
theorem exec_dec_code_of_malformed (h : exec (instrOf .dec m) s = .next t) (hn : s.resolves .dec m n)
    (hlen : n = 0 ∨ n % 4 ≠ 0) : t.dec.status.code = 2#3 := by
  rw [exec_dec_malformed (exec_instrOf_capacityFits h) hn hlen] at h
  cases h
  exact failed_unit_code s .dec m 2#3

/-- A byte before the pads that is no symbol ends a completed decode with code 3, when the length is right (R115). -/
theorem exec_dec_code_of_invalid (h : exec (instrOf .dec m) s = .next t) (hn : s.resolves .dec m n)
    (hlen : ¬ (n = 0 ∨ n % 4 ≠ 0)) (hp : PadsOf (s.inByte .dec) n p) {i : Nat} (hi : i < n - p)
    (hv : rev (s.inByte .dec i) = none) : t.dec.status.code = 3#3 := by
  rw [exec_dec_invalid (exec_instrOf_capacityFits h) hn (by omega) (by omega) hp hi hv] at h
  cases h
  exact failed_unit_code s .dec m 3#3

/-- A decode of legal text within its capacity: the bytes it leaves are those the text stands for. -/
theorem exec_dec_decodedByte (hc : s.capacityFits .dec) (hn : s.resolves .dec m n) (ht : LegalText (s.inByte .dec) n p)
    (h : decodeSize n p ≤ s.dec.cap) :
    ∃ t, exec (instrOf .dec m) s = .next t ∧ t.dec.status = ⟨0#3, true, false⟩ ∧ t.dec.cap = decodeSize n p ∧
      ∀ a < decodeSize n p, t.outByte .dec a = decodedByte (s.inByte .dec) a := by
  obtain ⟨t, hexec, -, hstatus, hsize, hbytes, -⟩ := exec_dec_decodes hc hn ht h
  exact ⟨t, hexec, hstatus, hsize, fun a ha => ht.decoded_eq hbytes ha⟩

/-- A successful decode had legal text for its logical input; `CAP` is the required size and `OUT` holds the bytes the text
stands for. -/
theorem exec_dec_succeeded (h : exec (instrOf .dec m) s = .next t) (hcode : t.dec.status.code = 0#3)
    (hn : s.resolves .dec m n) (hp : PadsOf (s.inByte .dec) n p) :
    LegalText (s.inByte .dec) n p ∧ t.dec.cap = decodeSize n p ∧
      ∀ a < decodeSize n p, t.outByte .dec a = decodedByte (s.inByte .dec) a := by
  obtain hlen | ⟨hlen, q, i, hq, hi, hv⟩ | ⟨q, ht⟩ := decode_input_cases (s.inByte .dec) n
  · rw [exec_dec_code_of_malformed h hn hlen] at hcode
    exact absurd hcode (by decide)
  · rw [exec_dec_code_of_invalid h hn hlen hq hi hv] at hcode
    exact absurd hcode (by decide)
  · obtain rfl : p = q := padsOf_unique hp ht.padsOf
    obtain hcap | hcap := Nat.lt_or_ge s.dec.cap (decodeSize n p)
    · rw [(exec_dec_code_of_legalText h hn ht).1 hcap] at hcode
      exact absurd hcode (by decide)
    · obtain ⟨t', ht', -, hsize, hbytes⟩ := exec_dec_decodedByte (exec_instrOf_capacityFits h) hn ht hcap
      obtain rfl : t' = t := by rw [h] at ht'; cases ht'; rfl
      exact ⟨ht, hsize, hbytes⟩

end

/-! ### The round trip through the encoder and the decoder (R121, R97) -/

/-- Settles O31: the text is legal and needs exactly the `n` bytes, and the bytes it stands for are the input. -/
theorem encodeThenDecodeGivesTheBytesBack : Obligations.EncodeThenDecodeGivesTheBytesBack := by
  intro m m' s t s' n henc hcode hn hpos hc' hn' hcap' htext
  obtain ⟨hsize, henc⟩ := exec_enc_succeeded henc hcode hn
  rw [hsize] at hn' htext
  have hlegal : LegalText (s'.inByte .dec) (encodeSize n) (padsOfLength n) :=
    legalText_congr (fun a ha => (htext a ha).symm) (henc.legalText hpos)
  obtain ⟨t', hexec, hstatus, hcap, hbytes⟩ :=
    exec_dec_decodedByte hc' hn' hlegal (by rwa [decodeSize_encodeSize])
  rw [decodeSize_encodeSize] at hcap hbytes
  refine ⟨t', hexec, hstatus, hcap, fun a ha => ?_⟩
  calc t'.outByte .dec a = decodedByte (s'.inByte .dec) a := hbytes a ha
    _ = s.inByte .enc a := henc.decodedByte_of_agrees htext ha

/-- Settles O22: the positions of the pads and of the symbols in the text of `n` bytes. -/
theorem encoderLengthAndPaddingLaws : Obligations.EncoderLengthAndPaddingLaws := by
  intro m s t n hexec hcode hn
  obtain ⟨hsize, htext⟩ := exec_enc_succeeded hexec hcode hn
  refine ⟨hsize, fun a ha => ?_, fun a ha hne => ?_⟩
  · rw [hsize] at ha ⊢
    exact htext.eq_pad_iff ha
  · rw [hsize] at ha
    exact htext.symbol_of_lt (Nat.lt_of_not_le fun hle => hne (htext.pad_of_le ha hle))

/-- Settles O23: the pads are the ones the decoder finds, every byte before them is a symbol, and the fill is zero. -/
theorem encoderOutputIsLegalText : Obligations.EncoderOutputIsLegalText := by
  intro m s t n hexec hcode hn hpos
  obtain ⟨hsize, htext⟩ := exec_enc_succeeded hexec hcode hn
  rw [hsize]
  exact ⟨htext.legalText hpos, htext.discardedBitsZero⟩

/-- Texts of the same length with the same pads were encoded from inputs of the same length. -/
theorem length_eq_of_encodeSize_eq {input input' text text' : Nat → Byte} {n n' : Nat} (h : EncodesTo input text n)
    (h' : EncodesTo input' text' n') (hsize : encodeSize n = encodeSize n')
    (htext : ∀ a < encodeSize n, text a = text' a) : n = n' := by
  have hn := encodeSize_add_pads n
  have hn' := encodeSize_add_pads n'
  have hle' := padsOfLength_le n'
  obtain rfl | hpos := Nat.eq_zero_or_pos n
  · have hpads : padsOfLength 0 = 0 := rfl
    omega
  · have hpads : PadsOf text' (encodeSize n) (padsOfLength n) := padsOf_congr (by omega) htext (h.padsOf hpos)
    have hpads' := h'.padsOf (by omega)
    rw [← hsize] at hpads'
    have hp := padsOf_unique hpads hpads'
    omega

/-- Settles O24: the length is read off the pads, and the bytes are those the common text stands for. -/
theorem encoderIsInjective : Obligations.EncoderIsInjective := by
  intro m m' s s' t t' n n' hexec hcode hn hexec' hcode' hn' hcap htext
  obtain ⟨hsize, henc⟩ := exec_enc_succeeded hexec hcode hn
  obtain ⟨hsize', henc'⟩ := exec_enc_succeeded hexec' hcode' hn'
  rw [hsize] at hcap htext
  obtain rfl : n = n' := length_eq_of_encodeSize_eq henc henc' (hcap.trans hsize') htext
  refine ⟨rfl, fun a ha => ?_⟩
  calc s.inByte .enc a = decodedByte (t'.outByte .enc) a :=
        (henc.decodedByte_of_agrees (fun i hi => (htext i hi).symm) ha).symm
    _ = s'.inByte .enc a := henc'.decodedByte_eq ha

/-! ### Encoding what a text decodes to (R122 (c)) -/

/-- The number of bytes a legal text stands for needs a text of the same length again (R93, R116). -/
theorem LegalText.encodeSize_decodeSize {text : Nat → Byte} {n p : Nat} (ht : LegalText text n p) :
    encodeSize (decodeSize n p) = n ∧ padsOfLength (decodeSize n p) = p := by
  have hlen := ht.length_eq
  have hle := ht.pads_le
  have hsize := encodeSize_add_pads (decodeSize n p)
  unfold padsOfLength at hsize ⊢
  omega

section
variable {text bytes text' : Nat → Byte} {n p : Nat}

/-- Encoding again gives each byte of the text back, but for the last symbol before the pads. -/
theorem reencoded_eq (ht : LegalText text n p) (hb : ∀ a < decodeSize n p, bytes a = decodedByte text a)
    (he : EncodesTo bytes text' (decodeSize n p)) {a : Nat} (ha : a < n) (hlast : p = 0 ∨ a ≠ n - 1 - p) :
    text' a = text a := by
  have hlen := ht.length_eq
  have hle := ht.pads_le
  obtain ⟨hsize, hpads⟩ := ht.encodeSize_decodeSize
  by_cases hpad : n ≤ a + p
  · rw [he.pad_of_le (by omega) (by omega), ht.eq_pad ha hpad]
  obtain ⟨g, rfl | rfl | rfl | rfl⟩ := symbolIndex_cases a
  · rw [he.symbol0 (by omega), hb _ (by omega), decodedByte_first, sextet0_groupByte0,
      ht.alpha_symbolValue (by omega)]
  · rw [he.symbol1 (by omega), hb _ (by omega), hb _ (by omega), decodedByte_first, decodedByte_second,
      sextet1_groupBytes, ht.alpha_symbolValue (by omega)]
  · rw [he.symbol2 (by omega), hb _ (by omega), hb _ (by omega), decodedByte_second, decodedByte_third,
      sextet2_groupBytes, ht.alpha_symbolValue (by omega)]
  · rw [he.symbol3 (by omega), hb _ (by omega), decodedByte_third, sextet3_groupByte2,
      ht.alpha_symbolValue (by omega)]

/-- Encoding again gives the last symbol before the pads back exactly when the bits the pads leave over are zero. -/
theorem reencoded_last_iff (ht : LegalText text n p) (hb : ∀ a < decodeSize n p, bytes a = decodedByte text a)
    (he : EncodesTo bytes text' (decodeSize n p)) (hp : p ≠ 0) :
    text' (n - 1 - p) = text (n - 1 - p) ↔ DiscardedBitsZero text n p := by
  have hlen := ht.length_eq
  have hle := ht.pads_le
  rw [ht.discardedBitsZero_iff]
  obtain ⟨g, rfl⟩ : ∃ g, n = 4 * g + 4 := ⟨n / 4 - 1, by omega⟩
  obtain rfl | rfl : p = 2 ∨ p = 1 := by omega
  · have hindex : 4 * g + 4 - 1 - 2 = 4 * g + 1 := by omega
    rw [hindex, he.symbol1_last (by omega), hb _ (by omega), decodedByte_first, ht.alpha_eq_iff (by omega),
      lastSextet1_groupByte0]
    simp
  · have hindex : 4 * g + 4 - 1 - 1 = 4 * g + 2 := by omega
    rw [hindex, he.symbol2_last (by omega), hb _ (by omega), decodedByte_second, ht.alpha_eq_iff (by omega),
      lastSextet2_groupByte1]
    simp

/-- Encoding what a legal text decodes to gives that text back exactly when its discarded bits are zero. -/
theorem reencoded_iff (ht : LegalText text n p) (hb : ∀ a < decodeSize n p, bytes a = decodedByte text a)
    (he : EncodesTo bytes text' (decodeSize n p)) :
    (∀ a < n, text' a = text a) ↔ DiscardedBitsZero text n p := by
  by_cases hp : p = 0
  · subst hp
    exact ⟨fun _ => ⟨by simp, by simp⟩, fun _ a ha => reencoded_eq ht hb he ha (.inl rfl)⟩
  · rw [← reencoded_last_iff ht hb he hp]
    refine ⟨fun h => h _ (by have := ht.pos; omega), fun h a ha => ?_⟩
    by_cases hlast : a = n - 1 - p
    · rw [hlast, h]
    · exact reencoded_eq ht hb he ha (.inr hlast)

end

/-- Settles O33: the decoded bytes need a text of the length of the old one, and `reencoded_iff` compares the two. -/
theorem decodeThenEncodeGivesCanonicalTextBack : Obligations.DecodeThenEncodeGivesCanonicalTextBack := by
  intro m m' s t s' n p hdec hcode hn hp hc' hn' hcap' hbytes
  obtain ⟨hlegal, hsize, hdecoded⟩ := exec_dec_succeeded hdec hcode hn hp
  rw [hsize] at hn' hbytes
  obtain ⟨hlen, -⟩ := hlegal.encodeSize_decodeSize
  obtain ⟨t', hexec, -, hstatus, hcap, htext, -⟩ := exec_enc_encodes hc' hn' (by rwa [hlen])
  refine ⟨t', hexec, hstatus, hcap.trans hlen, reencoded_iff hlegal (fun a ha => ?_) htext⟩
  rw [hbytes a ha, hdecoded a ha]

/-! ### Sizes, discarded bits, empty data and the order of the checks -/

/-- Settles O29: the size is three bytes to a group, less the pads. -/
theorem decoderSizeLaw : Obligations.DecoderSizeLaw := by
  intro m s t n p hexec hcode hn hp
  obtain ⟨hlegal, hsize, -⟩ := exec_dec_succeeded hexec hcode hn hp
  have hlen := hlegal.length_eq
  have hle := hlegal.pads_le
  have hpos := hlegal.pos
  rw [hsize]
  refine ⟨rfl, ?_, Nat.sub_le _ _, ?_, ?_, ?_⟩ <;> omega

/-- Byte 0 of a group looks at the upper two bits of its second symbol only (R73). -/
theorem groupByte0_congr {s0 s1 s1' : Sextet} (h : s1.extractLsb' 4 2 = s1'.extractLsb' 4 2) :
    groupByte0 s0 s1 = groupByte0 s0 s1' := by
  rw [groupByte0, groupByte0, h]

/-- Byte 1 of a group looks at the upper four bits of its third symbol only (R73). -/
theorem groupByte1_congr {s1 s2 s2' : Sextet} (h : s2.extractLsb' 2 4 = s2'.extractLsb' 2 4) :
    groupByte1 s1 s2 = groupByte1 s1 s2' := by
  rw [groupByte1, groupByte1, h]

/-- Texts that differ only in what the pads leave over of the last symbol, at `n - 1 - p`, stand for the same bytes
(R74). -/
theorem decodedByte_of_discardedBits {text text' : Nat → Byte} {n p : Nat} (ht : LegalText text n p) (hp : 1 ≤ p)
    (heq : ∀ i < n, i ≠ n - 1 - p → text' i = text i)
    (htwo : p = 2 → (symbolValue (text' (n - 1 - p))).extractLsb' 4 2 = (symbolValue (text (n - 1 - p))).extractLsb' 4 2)
    (hone : p = 1 → (symbolValue (text' (n - 1 - p))).extractLsb' 2 4 = (symbolValue (text (n - 1 - p))).extractLsb' 2 4)
    {a : Nat} (ha : a < decodeSize n p) : decodedByte text' a = decodedByte text a := by
  have hlen := ht.length_eq
  obtain ⟨g, rfl | rfl | rfl⟩ := byteIndex_cases a
  · rw [decodedByte_first, decodedByte_first, heq (4 * g) (by omega) (by omega)]
    by_cases hlast : 4 * g + 1 = n - 1 - p
    · rw [hlast]
      exact groupByte0_congr (htwo (by omega))
    · rw [heq _ (by omega) hlast]
  · rw [decodedByte_second, decodedByte_second, heq (4 * g + 1) (by omega) (by omega)]
    by_cases hlast : 4 * g + 2 = n - 1 - p
    · rw [hlast]
      exact groupByte1_congr (hone (by omega))
    · rw [heq _ (by omega) hlast]
  · rw [decodedByte_third, decodedByte_third, heq (4 * g + 2) (by omega) (by omega),
      heq (4 * g + 3) (by omega) (by omega)]

/-- Settles O30: both texts are legal and need the same capacity, and stand for the same bytes. -/
theorem discardedBitsAreNotChecked : Obligations.DiscardedBitsAreNotChecked := by
  intro m s s' n p hparams hc hcap hn hn' ht ht' hsize hp heq hbits
  have hc' : s'.capacityFits .dec := by
    rw [State.capacityFits, unit_dec, hcap, State.outBytes, hparams]
    exact hc
  obtain ⟨t, hexec, hstatus, htcap, hbytes⟩ := exec_dec_decodedByte hc hn ht hsize
  obtain ⟨t', hexec', hstatus', htcap', hbytes'⟩ := exec_dec_decodedByte hc' hn' ht' (by rw [hcap]; exact hsize)
  refine ⟨t, t', hexec, hexec', hstatus, hstatus'.trans hstatus.symm, htcap'.trans htcap.symm, fun a ha => ?_⟩
  rw [htcap] at ha
  have hlen := ht.length_eq
  have hle := ht.pads_le
  have hindex : n - 4 + (3 - p) = n - 1 - p := by omega
  rw [hindex] at heq hbits
  obtain ⟨htwo, hone⟩ := hbits _ _ (ht.rev_eq (by omega)) (ht'.rev_eq (by omega))
  rw [hbytes a ha, hbytes' a ha]
  exact decodedByte_of_discardedBits ht hp heq (fun h => (htwo h).symm) (fun h => (hone h).symm) ha

/-- Settles O32: no byte needs no capacity and gives no write, and no text is a malformed length. -/
theorem emptyDataDoesNotRoundTrip : Obligations.EmptyDataDoesNotRoundTrip := by
  refine ⟨fun m s hc hn => ?_, fun m s hc hn => exec_dec_malformed hc hn (.inl rfl)⟩
  rw [exec_enc_success hc hn (Nat.zero_le _)]
  rfl

/-- Settles O35: each clause is one check of the operation, with the checks before it passed. -/
theorem oneStatusByTheFixedOrder : Obligations.OneStatusByTheFixedOrder := by
  refine ⟨fun m s t n hexec hn => ?_, fun m s t n p hexec hn hp => ?_⟩
  · obtain ⟨hsmall, henough⟩ := exec_enc_code hexec hn
    exact ⟨hsmall, fun h => henough (Nat.le_of_not_lt h)⟩
  have hlegal (hlen : ¬ (n = 0 ∨ n % 4 ≠ 0)) (hsym : ¬ ∃ i < n - p, rev (s.inByte .dec i) = none) :
      LegalText (s.inByte .dec) n p :=
    ⟨by omega, by omega, hp, fun i hi => Option.ne_none_iff_exists'.1 fun hv => hsym ⟨i, hi, hv⟩⟩
  refine ⟨exec_dec_code_of_malformed hexec hn, fun hlen ⟨i, hi, hv⟩ => ?_, fun hlen hsym hcap => ?_,
    fun hlen hsym hcap => ?_⟩
  · exact exec_dec_code_of_invalid hexec hn hlen hp hi hv
  · exact (exec_dec_code_of_legalText hexec hn (hlegal hlen hsym)).1 hcap
  · exact (exec_dec_code_of_legalText hexec hn (hlegal hlen hsym)).2 (Nat.le_of_not_lt hcap)

end Sys2Proof.Machine

namespace Sys2Proof.Machine

/-! ### A unit's turn: the command it runs and what it leaves (R28, R29, R36) -/

@[simp] theorem popTurn_operate (s : State) (u : UnitId) (m : Mode) : s.popTurn.operate u m = s.operate u m := by
  cases u <;> rfl

section
variable {s : State} {u : UnitId} {r : OpResult}

/-- The turn of a busy unit is its command, in the mode its `CMD` holds. -/
theorem step_busy (h : s.nextTurn = .unit u) (hb : (s.unit u).status.busy = true) :
    step s = exec (instrOf u (s.unit u).mode) s.popTurn := by
  rw [step_unit h, unitTurn_busy (by simpa using hb), popTurn_unit]

theorem step_idle (h : s.nextTurn = .unit u) (hb : (s.unit u).status.busy = false) : step s = .next s.popTurn := by
  rw [step_unit h, unitTurn_idle (by simpa using hb)]

theorem step_completes (h : s.nextTurn = .unit u) (hb : (s.unit u).status.busy = true)
    (hr : s.operate u (s.unit u).mode = .ok r) : step s = .next (s.popTurn.setUnit u ((s.unit u).complete r)) := by
  rw [step_busy h hb, exec_instrOf_next ((popTurn_operate ..).trans hr), popTurn_unit, start_complete_of_mode rfl]

theorem step_refuses {e : Refusal} (h : s.nextTurn = .unit u) (hb : (s.unit u).status.busy = true)
    (he : s.operate u (s.unit u).mode = .error e) : step s = .refused e := by
  rw [step_busy h hb, exec_instrOf_refused ((popTurn_operate ..).trans he)]

end

/-- Settles O36: `encodeOp` and `decodeOp` are the operations of the two units. -/
theorem completionAppliesTheOperation : Obligations.CompletionAppliesTheOperation := by
  refine ⟨fun s r hturn hbusy hop => ?_, fun s r hturn hbusy hop => ?_, fun s e hturn hbusy hop => ?_,
    fun s e hturn hbusy hop => ?_⟩
  · exact step_completes (u := .enc) hturn hbusy hop
  · exact step_completes (u := .dec) hturn hbusy hop
  · exact step_refuses (u := .enc) hturn hbusy hop
  · exact step_refuses (u := .dec) hturn hbusy hop

/-- A command word put into a byte is read back, whatever follows (R60, log entry 7). -/
theorem decode_commandByte (w : BitVec 2) (rest : List Byte) :
    decode (w.zeroExtend 8 :: rest) = .ok (decodeCommand w, rest) := by
  have hw : (w.zeroExtend 8).extractLsb' 0 2 = w := by revert w; decide
  rw [decode, hw]

theorem decodeCommand_commandWord (i : Instr) : decodeCommand (commandWord i) = i := by cases i <;> decide

/-- Settles O5: the byte of a command gives its word back, and the words and the commands are in one-to-one relation. -/
theorem decodeAndEncodeAgree : Obligations.DecodeAndEncodeAgree := by
  refine ⟨fun i rest _ => ?_, by decide⟩
  rw [encode, List.singleton_append, decode_commandByte, decodeCommand_commandWord]

/-- Settles O4: the table of R61, row by row. -/
theorem commandWordsAreTheFourCommands : Obligations.CommandWordsAreTheFourCommands :=
  ⟨rfl, rfl, rfl, rfl, rfl, rfl, rfl, rfl, rfl, rfl, rfl, rfl⟩

/-- Settles O9: the byte at the unit decodes to the command that the unit's turn runs. -/
theorem stepRunsTheDecodedCommand : Obligations.StepRunsTheDecodedCommand := by
  intro s u hturn hbusy
  have hstep := step_busy hturn hbusy
  refine ⟨fun i rest hdecode => ?_, hstep⟩
  rw [decode_commandByte, decodeCommand_fetchWord] at hdecode
  cases hdecode
  exact hstep

/-- A command on a unit that is already started in its mode does what it does on the unit before the start. -/
theorem exec_start (s : State) (u : UnitId) (m : Mode) :
    exec (instrOf u m) (s.setUnit u ((s.unit u).start m)) = exec (instrOf u m) s := by
  cases u <;> cases m <;> rfl

/-- The turn of a unit that has just been started carries the command out, as if in one piece (R36). -/
theorem step_started (s : State) (u : UnitId) (m : Mode) (schedule : List Turn) :
    step (State.setUnit { s with schedule := .unit u :: schedule } u ((s.unit u).start m)) =
      exec (instrOf u m) { s with schedule := schedule } := by
  have hturn : State.nextTurn (State.setUnit { s with schedule := .unit u :: schedule } u ((s.unit u).start m)) =
      .unit u := by
    cases u <;> rfl
  rw [step_busy hturn (by simp), setUnit_unit, start_mode, ← exec_start { s with schedule := schedule } u m]
  cases u <;> rfl

/-- Settles O43: the write is the start step, and the unit's turn then carries out the command so given. -/
theorem startThenCompletionIsTheCommand : Obligations.StartThenCompletionIsTheCommand := by
  intro s u v program schedule hidle
  refine ⟨_, ?_, step_started { s with program := program } u _ schedule⟩
  rw [step_hostAction rfl rfl, hostPerform, writeRegister_cmd_idle v (by simpa using hidle), unit_withProgramSchedule]
  cases u <;> rfl

/-! ### Commands: failures, frame (R20, R33, R45, R155 to R158) -/

/-- The operands of a unit are no part of what a failed command changes. -/
theorem failed_operate (s : State) (u : UnitId) (m m' : Mode) (code : BitVec 3) :
    (s.failed u m code).operate u m' = s.operate u m' := by
  cases u <;> rfl

theorem failed_unit_cap (s : State) (u : UnitId) (m : Mode) (code : BitVec 3) :
    ((s.failed u m code).unit u).cap = (s.unit u).cap := by
  rw [State.failed, setUnit_unit]

theorem failed_failed (s : State) (u : UnitId) (m : Mode) (code : BitVec 3) :
    (s.failed u m code).failed u m code = s.failed u m code := by
  cases u <;> rfl

/-- Settles O39: the operation answers the same failure on the failed state, and failing twice is failing once. -/
theorem retryGivesTheSameStatus : Obligations.RetryGivesTheSameStatus := by
  intro i s t hexec hcode
  obtain ⟨k, hop, rfl⟩ := exec_failed hexec hcode
  have hagain : (s.failed i.unit i.mode (statusCode k)).operate i.unit i.mode =
      .ok (raise k ((s.failed i.unit i.mode (statusCode k)).unit i.unit).cap) := by
    rw [failed_operate, hop, failed_unit_cap]
  rw [exec_next_of_operate hagain, complete_raise, failed_failed]

/-- Settles O40: a completion writes `OUT` and the registers of its own unit, and the bytes of the other buffers follow
their cells. -/
theorem commandsTouchOnlyTheirUnit : Obligations.CommandsTouchOnlyTheirUnit := by
  intro i s t hexec
  obtain ⟨r, -, rfl⟩ := exec_next_iff.1 hexec
  refine ⟨commandFrame_complete i.unit i.mode r s, by simp, by simp, by simp, fun b a => ?_, fun a => ?_⟩
  · exact byteAt_congr (by simp) (by simp) a
  · exact byteAt_congr (by simp [UnitState.buf]) (by simp) a

/-! ### Turns of the two units commute (R52 (d), R161) -/

/-- What a unit's turn makes of the unit: its completion when it is busy, itself when it is idle. -/
def State.turnResult (s : State) (u : UnitId) : Except Refusal UnitState :=
  if (s.unit u).status.busy then (s.operate u (s.unit u).mode).map (s.unit u).complete else .ok (s.unit u)

/-- A unit's turn replaces that unit and takes the turn off the schedule. -/
theorem step_unit_next_iff {s t : State} {u : UnitId} (h : s.nextTurn = .unit u) :
    step s = .next t ↔ ∃ x, s.turnResult u = .ok x ∧ t = s.popTurn.setUnit u x := by
  cases hb : (s.unit u).status.busy with
  | true =>
    cases hop : s.operate u (s.unit u).mode with
    | ok r =>
      rw [step_completes h hb hop]
      simp [State.turnResult, hb, hop, Except.map, eq_comm]
    | error e =>
      rw [step_refuses h hb hop]
      simp [State.turnResult, hb, hop, Except.map]
  | false =>
    have hself : s.popTurn.setUnit u (s.unit u) = s.popTurn := by rw [← popTurn_unit s u, setUnit_self]
    rw [step_idle h hb]
    simp [State.turnResult, hb, hself, eq_comm]

/-- A unit's turn sees neither the other unit nor the schedule (R33). -/
theorem turnResult_other (s : State) (u : UnitId) (x : UnitState) (schedule : List Turn) :
    State.turnResult (State.setUnit { s with schedule := schedule } u x) u.other = s.turnResult u.other := by
  cases u <;> rfl

/-- The turns of a unit and then of the other unit: each makes of its unit what it makes of it in the first state. -/
theorem twoTurns_iff (s t : State) (rest : List Turn) (u : UnitId) :
    (∃ w, step { s with schedule := .unit u :: .unit u.other :: rest } = .next w ∧ step w = .next t) ↔
      ∃ x y, s.turnResult u = .ok x ∧ s.turnResult u.other = .ok y ∧
        t = (State.setUnit { s with schedule := rest } u x).setUnit u.other y := by
  have hfirst : State.turnResult { s with schedule := .unit u :: .unit u.other :: rest } u = s.turnResult u := by
    cases u <;> rfl
  have hturn (x : UnitState) :
      State.nextTurn (State.setUnit { s with schedule := .unit u.other :: rest } u x) = .unit u.other := by
    cases u <;> rfl
  have hpop (x : UnitState) : State.popTurn (State.setUnit { s with schedule := .unit u.other :: rest } u x) =
      State.setUnit { s with schedule := rest } u x := by
    cases u <;> rfl
  constructor
  · rintro ⟨w, hw, ht⟩
    obtain ⟨x, hx, rfl⟩ := (step_unit_next_iff (u := u) rfl).1 hw
    obtain ⟨y, hy, rfl⟩ := (step_unit_next_iff (hturn x)).1 ht
    exact ⟨x, y, hfirst ▸ hx, (turnResult_other s u x _) ▸ hy, by rw [← hpop]⟩
  · rintro ⟨x, y, hx, hy, rfl⟩
    refine ⟨_, (step_unit_next_iff (u := u) rfl).2 ⟨x, hfirst.trans hx, rfl⟩, ?_⟩
    exact (step_unit_next_iff (hturn x)).2 ⟨y, (turnResult_other s u x _).trans hy, by rw [hpop]⟩

/-- Settles O47: in either order each unit becomes what its turn makes of it, and writes to different units commute. -/
theorem theTwoUnitsCommute : Obligations.TheTwoUnitsCommute := by
  intro s t rest
  have hcomm (x y : UnitState) : (State.setUnit { s with schedule := rest } .enc x).setUnit .dec y =
      (State.setUnit { s with schedule := rest } .dec y).setUnit .enc x :=
    setUnit_comm x _ .enc y
  refine (twoTurns_iff s t rest .enc).trans (Iff.trans ?_ (twoTurns_iff s t rest .dec).symm)
  constructor
  · rintro ⟨x, y, hx, hy, rfl⟩
    exact ⟨y, x, hy, hx, hcomm x y⟩
  · rintro ⟨y, x, hy, hx, rfl⟩
    exact ⟨x, y, hx, hy, (hcomm x y).symm⟩

end Sys2Proof.Machine

namespace Sys2Proof.Machine

/-! ### Turns with nothing to do, and the reset event (R20, R180, R193) -/

theorem nextTurn_cons {s : State} {k : Turn} {rest : List Turn} (h : s.schedule = k :: rest) : s.nextTurn = k := by
  simp [State.nextTurn, h]

theorem nextTurn_nil {s : State} (h : s.schedule = []) :
    s.nextTurn = if s.enc.status.busy then .unit .enc else if s.dec.status.busy then .unit .dec else .host := by
  simp [State.nextTurn, h]

theorem step_host_nil {s : State} (h : s.nextTurn = .host) (hp : s.program = []) : step s = .next s.popTurn := by
  rw [step_host h, hostTurn_nil (by simpa using hp)]

/-- Settles O10: the choice of the turn, and the two kinds of turn that only take themselves off the schedule. -/
theorem turnsAndIdleTurns : Obligations.TurnsAndIdleTurns := by
  refine ⟨fun s k rest => nextTurn_cons, fun s hs he => ?_, fun s hs he hd => ?_, fun s hs he hd => ?_,
    fun s u => step_idle, fun s => step_host_nil⟩
  · simp [nextTurn_nil hs, he]
  · simp [nextTurn_nil hs, he, hd]
  · simp [nextTurn_nil hs, he, hd]

/-- Settles O8: both units are `UnitState.reset` afterwards, under the next launch number. -/
theorem resetEventClearsBothUnits : Obligations.ResetEventClearsBothUnits := by
  intro s hturn
  refine ⟨_, step_reset hturn, fun u => ?_, rfl, rfl, rfl, rfl, rfl⟩
  have hunit : s.popTurn.resetEvent.unit u = .reset := resetEvent_unit ..
  have hbytes (b : Buf) (a : Nat) : s.popTurn.resetEvent.byteAt u b a = Config.launchByte (s.launch + 1) u b a :=
    byteAt_of_buf_nil (by rw [hunit, reset_buf]) a
  rw [hunit]
  exact ⟨rfl, rfl, rfl, rfl, hbytes⟩

/-! ### The host's register accesses (R22, R25, R30) -/

/-- The table of R22 read backwards: the unit of each of its registers. -/
theorem registerUnit_registerNumber (u : UnitId) {k : Nat} (hk : k ≤ 3) : registerUnit (registerNumber u k) = u := by
  interval_cases k <;> cases u <;> rfl

/-- The table of R22 read backwards: the place of each register in its unit. -/
theorem registerIndex_registerNumber (u : UnitId) {k : Nat} (hk : k ≤ 3) :
    registerIndex (registerNumber u k) = BitVec.ofNat 2 k := by
  interval_cases k <;> cases u <;> rfl

section
variable {s : State} {u : UnitId} {k v : Nat} {rest : List HostAction}

/-- The host's write to register `k` of an idle unit. -/
theorem step_wr_idle (hk : k ≤ 3) (h : s.nextTurn = .host) (hp : s.program = .wr (registerNumber u k) v :: rest)
    (hidle : (s.unit u).status.busy = false) :
    step s = .next (State.setUnit { s with program := rest, schedule := s.schedule.tail } u
      ((s.unit u).writeRegister s.params.lenW (BitVec.ofNat 2 k) v)) := by
  have hu := registerUnit_registerNumber u hk
  rw [step_hostAction h hp, hostPerform, writeRegister_idle v (by simpa [hu] using hidle), hu,
    registerIndex_registerNumber u hk, unit_withProgramSchedule]

theorem step_wr_busy (hk : k ≤ 3) (h : s.nextTurn = .host) (hp : s.program = .wr (registerNumber u k) v :: rest)
    (hbusy : (s.unit u).status.busy = true) :
    step s = .next { s with program := rest, schedule := s.schedule.tail } := by
  rw [step_hostAction h hp, hostPerform,
    writeRegister_busy v (by rw [registerUnit_registerNumber u hk]; simpa using hbusy)]

end

/-- Settles O12: registers 1 to 3 of an idle unit. -/
theorem registerWritesOfAnIdleUnit : Obligations.RegisterWritesOfAnIdleUnit := by
  intro s u v rest hturn hidle
  refine ⟨fun hp => ?_, fun hp => ?_, fun hp => ?_⟩
  · exact step_wr_idle (k := 1) (by decide) hturn hp hidle
  · exact step_wr_idle (k := 2) (by decide) hturn hp hidle
  · have hignored : State.setUnit { s with program := rest, schedule := s.schedule.tail } u (s.unit u) =
        { s with program := rest, schedule := s.schedule.tail } := by
      cases u <;> rfl
    exact (step_wr_idle (k := 3) (by decide) hturn hp hidle).trans (congrArg Host.Outcome.next hignored)

/-- Settles O13: the write is ignored, whichever register it is for. -/
theorem busyUnitIgnoresRegisterWrites : Obligations.BusyUnitIgnoresRegisterWrites :=
  fun _ _ _ _ _ => step_wr_busy

/-- `U.STATUS` as a number, by the places of its three fields (R25). -/
theorem status_word_toNat (x : Status) :
    x.word.toNat = x.code.toNat + (if x.done then 8 else 0) + (if x.busy then 16 else 0) := by
  obtain ⟨code, done, busy⟩ := x
  revert code done busy
  decide

/-- A register of a state reads as the table of R22 lays it out. -/
theorem readRegister_registerNumber (s : State) (u : UnitId) {k : Nat} (hk : k ≤ 3) :
    s.readRegister (registerNumber u k) = registerValue (s.unit u) k := by
  rw [State.readRegister, registerUnit_registerNumber u hk, registerIndex_registerNumber u hk]
  obtain rfl | rfl | rfl | rfl : k = 0 ∨ k = 1 ∨ k = 2 ∨ k = 3 := by omega
  · show (bitOfMode (s.unit u).mode).toNat = if (s.unit u).mode = .raw then 0 else 1
    cases (s.unit u).mode <;> rfl
  · rfl
  · rfl
  · exact status_word_toNat _

/-- A register read records the register's value (R22, R30). -/
theorem hostRead_registerNumber (s : State) (u : UnitId) {k : Nat} (hk : k ≤ 3) :
    hostRead (registerNumber u k) s = s.note (.register (registerNumber u k) (registerValue (s.unit u) k)) := by
  rw [hostRead, readRegister_registerNumber s u hk]

/-- Settles O14: a read of any register records its value, whatever the unit is doing. -/
theorem registerReadsReturnTheCurrentValue : Obligations.RegisterReadsReturnTheCurrentValue := by
  intro s u k rest hk hturn hp
  rw [step_hostAction hturn hp, hostPerform, hostRead_registerNumber _ u hk, unit_withProgramSchedule]
  rfl

/-- Settles O19: one read of `U.STATUS`; the action goes back to the front exactly when `DONE` is 0. -/
theorem waitReadsStatusUntilDone : Obligations.WaitReadsStatusUntilDone := by
  intro s u rest hturn hp
  obtain ⟨-, -, -, hstatus⟩ := registerNumber_eq u
  rw [step_hostAction hturn hp, hostPerform, hostWait, ← hstatus, hostRead_registerNumber _ u le_rfl,
    unit_withProgramSchedule]
  cases (s.unit u).status.done <;> rfl

/-! ### The host's buffer accesses (R40, R45 to R47, R188) -/

section
variable (s : State) (u : UnitId) (b : Buf) (program : List HostAction) (schedule : List Turn)

/-- A buffer's size and its bytes do not depend on the host's program or on the schedule. -/
@[simp] theorem bufBytes_withProgramSchedule :
    State.bufBytes { s with program := program, schedule := schedule } u b = s.bufBytes u b := by cases b <;> rfl

@[simp] theorem byteAt_withProgramSchedule :
    State.byteAt { s with program := program, schedule := schedule } u b = s.byteAt u b := by cases u <;> rfl

end

section
variable {s : State} {u : UnitId} {b : Buf} {a : Nat} {v : Byte} {rest : List HostAction}

theorem hostPut_outside (h : s.bufBytes u b ≤ a) : hostPut u b a v s = .fault (.noSuchIndex u b a) := by
  rw [hostPut, if_pos h]

theorem hostPut_busy (h : a < s.bufBytes u b) (hb : (s.unit u).status.busy = true) :
    hostPut u b a v s = .fault (.bufferWriteWhileBusy u b) := by
  rw [hostPut, if_neg (Nat.not_le.2 h), if_pos hb]

theorem hostPut_idle (h : a < s.bufBytes u b) (hb : (s.unit u).status.busy = false) :
    hostPut u b a v s = .next (s.setUnit u ((s.unit u).setBuf b (((s.unit u).buf b).write a v))) := by
  rw [hostPut, if_neg (Nat.not_le.2 h), if_neg (by simp [hb])]

theorem hostGet_outside (h : s.bufBytes u b ≤ a) : hostGet u b a s = .fault (.noSuchIndex u b a) := by
  rw [hostGet, if_pos h]

/-- A read that R30 gives no meaning: a free value (log entry 5). -/
theorem hostGet_busyOutput (h : a < s.outBytes u) (hb : (s.unit u).status.busy = true) :
    hostGet u .output a s =
      .next { s.note (.byte u .output a (Config.busyReadByte s.busyReads)) with busyReads := s.busyReads + 1 } := by
  rw [hostGet, if_neg (show ¬ s.bufBytes u .output ≤ a from Nat.not_le.2 h), if_pos ⟨hb, rfl⟩]

theorem hostGet_byte (h : a < s.bufBytes u b) (hb : (s.unit u).status.busy = false ∨ b = .input) :
    hostGet u b a s = .next (s.note (.byte u b a (s.byteAt u b a))) := by
  have hmeant : ¬ ((s.unit u).status.busy ∧ b = .output) := by
    rintro ⟨hbusy, rfl⟩
    obtain hidle | hin := hb
    · rw [hidle] at hbusy; cases hbusy
    · cases hin
  rw [hostGet, if_neg (Nat.not_le.2 h), if_neg hmeant]

end

/-- Settles O18: the index is checked first, then that the unit is idle. -/
theorem hostBufferFaults : Obligations.HostBufferFaults := by
  refine ⟨fun s u b a v rest hturn hp ha => ?_, fun s u b a rest hturn hp ha => ?_,
    fun s u b a v rest hturn hp ha hbusy => ?_⟩ <;> rw [step_hostAction hturn hp, hostPerform]
  · exact hostPut_outside (by simpa using ha)
  · exact hostGet_outside (by simpa using ha)
  · exact hostPut_busy (by simpa using ha) (by simpa using hbusy)

/-- Settles O16: the byte at the index is recorded. -/
theorem bufferReadReturnsTheByte : Obligations.BufferReadReturnsTheByte := by
  intro s u b a rest hturn hp ha hb
  rw [step_hostAction hturn hp, hostPerform, hostGet_byte (by simpa using ha) (by simpa using hb),
    byteAt_withProgramSchedule]
  rfl

/-- Settles O17: the next free value is recorded and counted. -/
theorem busyOutputReadIsFree : Obligations.BusyOutputReadIsFree := by
  intro s u a rest hturn hp ha hbusy
  rw [step_hostAction hturn hp, hostPerform]
  exact hostGet_busyOutput (s := { s with program := rest, schedule := s.schedule.tail }) ha (by simpa using hbusy)

/-- `U.IN` and `U.OUT` are different memories (R57). -/
theorem setBuf_buf_of_ne (x : UnitState) {b b' : Buf} (mem : Memory) (h : b' ≠ b) :
    (x.setBuf b mem).buf b' = x.buf b' := by
  revert h
  cases b <;> cases b' <;> simp [UnitState.setBuf, UnitState.buf]

/-- `MemWrite` on a buffer of a unit (R47). -/
def State.putByte (s : State) (u : UnitId) (b : Buf) (a : Nat) (v : Byte) : State :=
  s.setUnit u ((s.unit u).setBuf b (((s.unit u).buf b).write a v))

section
variable (s : State) {u : UnitId} {b : Buf} {a : Nat} (v : Byte)

theorem putByte_byteAt_same : (s.putByte u b a v).byteAt u b a = v := by
  simp [State.putByte, State.byteAt]

theorem putByte_byteAt_other {u' : UnitId} {b' : Buf} {a' : Nat} (h : ¬ (u' = u ∧ b' = b ∧ a' = a)) :
    (s.putByte u b a v).byteAt u' b' a' = s.byteAt u' b' a' := by
  by_cases hu : u' = u
  · subst hu
    by_cases hb : b' = b
    · subst hb
      have ha : a' ≠ a := fun e => h ⟨rfl, rfl, e⟩
      simp [State.putByte, State.byteAt, Memory.read_write_other _ v ha]
    · exact byteAt_congr (by rw [State.putByte, setUnit_unit, setBuf_buf_of_ne _ _ hb]) (by simp [State.putByte]) a'
  · exact byteAt_congr (by rw [State.putByte, unit_of_ne _ _ _ hu]) (by simp [State.putByte]) a'

/-- No register changes with a byte of a buffer. -/
theorem putByte_registers (u' : UnitId) :
    ((s.putByte u b a v).unit u').mode = (s.unit u').mode ∧ ((s.putByte u b a v).unit u').inLen = (s.unit u').inLen ∧
      ((s.putByte u b a v).unit u').cap = (s.unit u').cap ∧
      ((s.putByte u b a v).unit u').status = (s.unit u').status := by
  by_cases hu : u' = u
  · subst hu
    simp [State.putByte]
  · rw [State.putByte, unit_of_ne _ _ _ hu]
    exact ⟨rfl, rfl, rfl, rfl⟩

end

/-- Settles O15: the step puts the byte, and `putByte` changes that one byte only. -/
theorem bufferWriteChangesOneByte : Obligations.BufferWriteChangesOneByte := by
  intro s u b a v rest hturn hp ha hidle
  have hstep : step s = .next (State.putByte { s with program := rest, schedule := s.schedule.tail } u b a v) := by
    rw [step_hostAction hturn hp, hostPerform, hostPut_idle (by simpa using ha) (by simpa using hidle)]
    rfl
  refine ⟨_, hstep, putByte_byteAt_same _ v, fun u' b' a' hne => ?_, fun u' => ?_, ?_⟩
  · rw [putByte_byteAt_other _ v hne, byteAt_withProgramSchedule]
  · simpa using putByte_registers { s with program := rest, schedule := s.schedule.tail } (a := a) (b := b) (u := u) v u'
  · simp [State.putByte]

/-! ### The reverse table by its ranges (R68) -/

/-- The table of R68 on byte values. -/
theorem rev_eq_of_toNat (b : Byte) : rev b =
    if b.toNat = 0x2B then some 62#6
    else if b.toNat = 0x2F then some 63#6
    else if 0x30 ≤ b.toNat ∧ b.toNat ≤ 0x39 then some (BitVec.ofNat 6 (b.toNat - 0x30 + 52))
    else if 0x41 ≤ b.toNat ∧ b.toNat ≤ 0x5A then some (BitVec.ofNat 6 (b.toNat - 0x41))
    else if 0x61 ≤ b.toNat ∧ b.toNat ≤ 0x7A then some (BitVec.ofNat 6 (b.toNat - 0x61 + 26))
    else none := by
  have heq (k : Nat) (hk : k < 256) : b = BitVec.ofNat 8 k ↔ b.toNat = k := by
    rw [← BitVec.toNat_inj, BitVec.toNat_ofNat, Nat.mod_eq_of_lt hk]
  simp only [rev, heq 0x2B (by decide), heq 0x2F (by decide)]

/-- A byte outside the five ranges of symbols is invalid. -/
theorem rev_eq_none {b : Byte} (hplus : b.toNat ≠ 0x2B) (hslash : b.toNat ≠ 0x2F)
    (hdigit : ¬ (0x30 ≤ b.toNat ∧ b.toNat ≤ 0x39)) (hupper : ¬ (0x41 ≤ b.toNat ∧ b.toNat ≤ 0x5A))
    (hlower : ¬ (0x61 ≤ b.toNat ∧ b.toNat ≤ 0x7A)) : rev b = none := by
  rw [rev_eq_of_toNat, if_neg hplus, if_neg hslash, if_neg hdigit, if_neg hupper, if_neg hlower]

/-- Settles O2: the five ranges between the symbols are invalid, and each range of symbols is one branch. -/
theorem reverseTableByRanges : Obligations.ReverseTableByRanges := by
  refine ⟨fun b => ⟨fun h => ?_, fun h => ?_, fun h h' => ?_, fun h => ?_, fun h h' => ?_, fun h h' => ?_, fun h h' => ?_,
    fun h h' => ?_, fun h h' => ?_, fun h => ?_⟩, by decide, by decide⟩
  · exact rev_eq_none (by omega) (by omega) (by omega) (by omega) (by omega)
  · rw [rev_eq_of_toNat, if_pos h]
  · exact rev_eq_none (by omega) (by omega) (by omega) (by omega) (by omega)
  · rw [rev_eq_of_toNat, if_neg (by omega), if_pos h]
  · rw [rev_eq_of_toNat, if_neg (by omega), if_neg (by omega), if_pos ⟨h, h'⟩]
  · exact rev_eq_none (by omega) (by omega) (by omega) (by omega) (by omega)
  · rw [rev_eq_of_toNat, if_neg (by omega), if_neg (by omega), if_neg (by omega), if_pos ⟨h, h'⟩]
  · exact rev_eq_none (by omega) (by omega) (by omega) (by omega) (by omega)
  · rw [rev_eq_of_toNat, if_neg (by omega), if_neg (by omega), if_neg (by omega), if_neg (by omega), if_pos ⟨h, h'⟩]
  · exact rev_eq_none (by omega) (by omega) (by omega) (by omega) (by omega)

end Sys2Proof.Machine
